-- ==== Sys2Proof/Word.lean ====
section
/-!
DEFINITION. The word types of the FTDI control-protocol encoder: an 8-bit byte, a 16-bit request or
result field, and the 32-bit command word (00_scope.md R10, 10_state.md R24, R31).
-/

namespace Sys2Proof

/-- One byte: a frame byte, STATUS or a request code (20_memory.md R50, 10_state.md R31, R32). -/
abbrev Byte := BitVec 8

/-- A 16-bit field: wValue, wIndex, wLength, LINE_VALUE, DIV_VALUE, DIV_INDEX, NREAD
(10_state.md R24, R31, R32). -/
abbrev Half := BitVec 16

/-- A 32-bit word: CMD, BAUD, ACHIEVED (10_state.md R24, R31). -/
abbrev Word := BitVec 32

end Sys2Proof
end

