-- ==== Sys2Proof/Syntax.lean ====
section
/-!
DEFINITION. The ten commands of the block, one constructor per row of spec/opcode_table.json, with the
raw fields of the command word each opcode uses (30_encoding.md R70, R81), and the enumerations those
fields name (30_encoding.md R75 to R82).
-/

namespace Sys2Proof

/-- One command. Its arguments are the fields its opcode uses (30_encoding.md R81), each as the bits
of the word: a field may hold an illegal value, and such a command decodes and then answers
INVALID_ARGUMENT (30_encoding.md R74, R83). The operands BAUD, FRAME and NREAD are inputs of the
transaction, not fields of the word (10_state.md R24). -/
inductive Instr where
  /-- REQ_RESET, opcode 0x00 (42_control_requests.md R172). -/
  | reqReset
  /-- REQ_MODEM_CTRL, opcode 0x01 (42_control_requests.md R177). -/
  | reqModemCtrl (dtr rts : BitVec 2)
  /-- REQ_FLOW_CTRL, opcode 0x02 (42_control_requests.md R179). -/
  | reqFlowCtrl (flow : BitVec 3)
  /-- REQ_SET_BAUD, opcode 0x03 (42_control_requests.md R181). -/
  | reqSetBaud (fam : BitVec 2)
  /-- REQ_SET_LINE, opcode 0x04 (42_control_requests.md R183). -/
  | reqSetLine (dbits : BitVec 4) (par : BitVec 3) (stop : BitVec 2) (brk : BitVec 1)
  /-- REQ_POLL_STATUS, opcode 0x05 (42_control_requests.md R185). -/
  | reqPollStatus
  /-- REQ_CONFIGURE, opcode 0x06 (42_control_requests.md R187). -/
  | reqConfigure (fam : BitVec 2) (dbits : BitVec 4) (par : BitVec 3) (stop : BitVec 2)
      (brk : BitVec 1) (flow : BitVec 3) (dtr rts : BitVec 2)
  /-- ENC_LINE, opcode 0x10 (40_line_encoding.md R106). -/
  | encLine (dbits : BitVec 4) (par : BitVec 3) (stop : BitVec 2) (brk : BitVec 1)
  /-- ENC_BAUD, opcode 0x13 (41_baud_encoding.md R158). -/
  | encBaud (fam : BitVec 2)
  /-- STRIP_FRAME, opcode 0x20 (43_frame_strip.md R215). -/
  | stripFrame
deriving DecidableEq, Repr

/-- The chip families (00_scope.md R2, 30_encoding.md R75). -/
inductive Family where
  | am
  /-- BM, 2232C, R. -/
  | bm
  /-- 2232H, 4232H, 232H, 230X. -/
  | h
deriving DecidableEq, Repr

/-- The data-bit counts (30_encoding.md R76). -/
inductive DataBits where
  | seven
  | eight
deriving DecidableEq, Repr

/-- The parities (30_encoding.md R77). -/
inductive Parity where
  | none
  | odd
  | even
  | mark
  | space
deriving DecidableEq, Repr

/-- The stop-bit selectors: 1, 1.5 and 2 stop bits (30_encoding.md R78). -/
inductive StopBits where
  | one
  | oneAndHalf
  | two
deriving DecidableEq, Repr

/-- The flow-control modes (30_encoding.md R80). -/
inductive FlowMode where
  | disable
  | rtsCts
  | dtrDsr
  | xonXoff
deriving DecidableEq, Repr

/-- The modem-line selectors: leave unchanged, drive low, drive high (30_encoding.md R82). -/
inductive LineSel where
  | keep
  | low
  | high
deriving DecidableEq, Repr

/-- A line configuration: data bits, parity, stop bits, break (00_scope.md R15, 40_line_encoding.md). -/
structure LineConfig where
  dataBits : DataBits
  parity : Parity
  stopBits : StopBits
  brk : Bool
deriving DecidableEq, Repr

end Sys2Proof
end

