-- ==== Sys2Proof/WellFormed.lean ====
section
/-!
DEFINITION. When every field a command uses holds a legal value (30_encoding.md R74 to R80, R82), read
from the field's bits alone. A command that fails a check still has a word and a meaning: it answers
INVALID_ARGUMENT (30_encoding.md R83, 60_exceptions.md R232). What the spec calls a well-formed WORD
(MASK and MATCH, 30_encoding.md R72) is `Opcode.accepts` of Decode.lean; every `Instr` has such a word.
-/

namespace Sys2Proof

/-- FAM is 0, 1 or 2 (30_encoding.md R75). -/
def famLegal (fam : BitVec 2) : Bool := fam.toNat ≤ 2

/-- DBITS is 7 or 8 (30_encoding.md R76). -/
def dbitsLegal (dbits : BitVec 4) : Bool := dbits.toNat = 7 || dbits.toNat = 8

/-- PAR is at most 4 (30_encoding.md R77). -/
def parLegal (par : BitVec 3) : Bool := par.toNat ≤ 4

/-- STOP is at most 2 (30_encoding.md R78). -/
def stopLegal (stop : BitVec 2) : Bool := stop.toNat ≤ 2

/-- FLOW is 0, 1, 2 or 4 (30_encoding.md R80). -/
def flowLegal (flow : BitVec 3) : Bool :=
  flow.toNat = 0 || flow.toNat = 1 || flow.toNat = 2 || flow.toNat = 4

/-- A DTR or RTS selector is not 1 (30_encoding.md R82). -/
def selLegal (sel : BitVec 2) : Bool := sel.toNat ≠ 1

/-- At least one modem line is selected: REQ_MODEM_CTRL with both selectors 0 has nothing to set
(42_control_requests.md R177). -/
def someLineSelected (dtr rts : BitVec 2) : Bool := dtr.toNat ≠ 0 || rts.toNat ≠ 0

/-- The four line fields are legal (30_encoding.md R76 to R79: both BRK values are legal). -/
def lineLegal (dbits : BitVec 4) (par : BitVec 3) (stop : BitVec 2) : Bool :=
  dbitsLegal dbits && parLegal par && stopLegal stop

/-- Every used field of the command holds a legal value (30_encoding.md R74, 60_exceptions.md R232). -/
def Instr.wellFormed : Instr → Bool
  | .reqReset => true
  | .reqModemCtrl dtr rts => selLegal dtr && selLegal rts && someLineSelected dtr rts
  | .reqFlowCtrl flow => flowLegal flow
  | .reqSetBaud fam => famLegal fam
  | .reqSetLine dbits par stop _ => lineLegal dbits par stop
  | .reqPollStatus => true
  | .reqConfigure fam dbits par stop _ flow dtr rts =>
      famLegal fam && lineLegal dbits par stop && flowLegal flow && selLegal dtr && selLegal rts
  | .encLine dbits par stop _ => lineLegal dbits par stop
  | .encBaud fam => famLegal fam
  | .stripFrame => true

end Sys2Proof
end

