-- ==== Sys2Proof/Decode.lean ====
section
/-!
DEFINITION. The command word (30_encoding.md R70, R71), the opcode map (R81), the decoder with its two
tests (R72, R83), and the encoder written from the same tables.
-/

namespace Sys2Proof

/-- The fields of the command word, most significant first (30_encoding.md R70). -/
structure CmdFields where
  rsv : BitVec 5 := 0
  rts : BitVec 2 := 0
  dtr : BitVec 2 := 0
  flow : BitVec 3 := 0
  brk : BitVec 1 := 0
  stop : BitVec 2 := 0
  par : BitVec 3 := 0
  dbits : BitVec 4 := 0
  fam : BitVec 2 := 0
  opc : BitVec 8 := 0
deriving DecidableEq, Repr

/-- `CMD.<FIELD>` is `CMD[hi:lo]` for the bits of 30_encoding.md R70. -/
def CmdFields.ofWord (w : Word) : CmdFields where
  opc := w.extractLsb' 0 8
  fam := w.extractLsb' 8 2
  dbits := w.extractLsb' 10 4
  par := w.extractLsb' 14 3
  stop := w.extractLsb' 17 2
  brk := w.extractLsb' 19 1
  flow := w.extractLsb' 20 3
  dtr := w.extractLsb' 23 2
  rts := w.extractLsb' 25 2
  rsv := w.extractLsb' 27 5

/-- The word whose fields, from bit 31 down, are those of `f` (30_encoding.md R70). -/
def CmdFields.toWord (f : CmdFields) : Word :=
  f.rsv ++ f.rts ++ f.dtr ++ f.flow ++ f.brk ++ f.stop ++ f.par ++ f.dbits ++ f.fam ++ f.opc

/-- The opcodes of the map (30_encoding.md R81). -/
inductive Opcode where
  | reqReset
  | reqModemCtrl
  | reqFlowCtrl
  | reqSetBaud
  | reqSetLine
  | reqPollStatus
  | reqConfigure
  | encLine
  | encBaud
  | stripFrame
deriving DecidableEq, Repr

/-- Every opcode, in the order of 30_encoding.md R81. -/
def Opcode.all : List Opcode :=
  [.reqReset, .reqModemCtrl, .reqFlowCtrl, .reqSetBaud, .reqSetLine, .reqPollStatus, .reqConfigure,
    .encLine, .encBaud, .stripFrame]

/-- The OPC value of an opcode (30_encoding.md R81). -/
def Opcode.code : Opcode → BitVec 8
  | .reqReset => 0x00
  | .reqModemCtrl => 0x01
  | .reqFlowCtrl => 0x02
  | .reqSetBaud => 0x03
  | .reqSetLine => 0x04
  | .reqPollStatus => 0x05
  | .reqConfigure => 0x06
  | .encLine => 0x10
  | .encBaud => 0x13
  | .stripFrame => 0x20

/-- MASK of an opcode: all bits but those of the fields it uses (30_encoding.md R72, R81). -/
def Opcode.mask : Opcode → Word
  | .reqReset => 0xFFFFFFFF
  | .reqModemCtrl => 0xF87FFFFF
  | .reqFlowCtrl => 0xFF8FFFFF
  | .reqSetBaud => 0xFFFFFCFF
  | .reqSetLine => 0xFFF003FF
  | .reqPollStatus => 0xFFFFFFFF
  | .reqConfigure => 0xF80000FF
  | .encLine => 0xFFF003FF
  | .encBaud => 0xFFFFFCFF
  | .stripFrame => 0xFFFFFFFF

/-- The fields of the command word that an opcode may use (30_encoding.md R70). -/
inductive CmdField where
  | fam
  | dbits
  | par
  | stop
  | brk
  | flow
  | dtr
  | rts
deriving DecidableEq, Repr

/-- The mask of a field (30_encoding.md R71). -/
def CmdField.mask : CmdField → Word
  | .fam => 0x00000300
  | .dbits => 0x00003C00
  | .par => 0x0001C000
  | .stop => 0x00060000
  | .brk => 0x00080000
  | .flow => 0x00700000
  | .dtr => 0x01800000
  | .rts => 0x06000000

/-- The fields an opcode uses (30_encoding.md R81). -/
def Opcode.uses : Opcode → List CmdField
  | .reqReset => []
  | .reqModemCtrl => [.dtr, .rts]
  | .reqFlowCtrl => [.flow]
  | .reqSetBaud => [.fam]
  | .reqSetLine => [.dbits, .par, .stop, .brk]
  | .reqPollStatus => []
  | .reqConfigure => [.fam, .dbits, .par, .stop, .brk, .flow, .dtr, .rts]
  | .encLine => [.dbits, .par, .stop, .brk]
  | .encBaud => [.fam]
  | .stripFrame => []

/-- MATCH of an opcode, which is the opcode itself (30_encoding.md R72, R81). -/
def Opcode.matchWord (op : Opcode) : Word := op.code.zeroExtend 32

/-- The opcode a value of OPC names, if it is one of the ten (30_encoding.md R81). -/
def Opcode.ofCode (c : BitVec 8) : Option Opcode := Opcode.all.find? fun op => op.code == c

/-- The word is well-formed for the opcode: `(CMD & MASK) == MATCH` (30_encoding.md R72). -/
def Opcode.accepts (op : Opcode) (w : Word) : Bool := (w &&& op.mask) == op.matchWord

/-- Why a word spells no command; both give ILLEGAL_COMMAND (30_encoding.md R72, R83). -/
inductive DecodeError where
  /-- OPC is none of the ten opcodes. -/
  | unassignedOpcode (opc : BitVec 8)
  /-- A reserved bit, or a field the opcode does not use, is not zero. -/
  | unusedFieldNonZero (op : Opcode)
deriving DecidableEq, Repr

/-- The command an opcode makes of the fields it uses (30_encoding.md R81). -/
def Opcode.assemble (op : Opcode) (f : CmdFields) : Instr :=
  match op with
  | .reqReset => .reqReset
  | .reqModemCtrl => .reqModemCtrl f.dtr f.rts
  | .reqFlowCtrl => .reqFlowCtrl f.flow
  | .reqSetBaud => .reqSetBaud f.fam
  | .reqSetLine => .reqSetLine f.dbits f.par f.stop f.brk
  | .reqPollStatus => .reqPollStatus
  | .reqConfigure => .reqConfigure f.fam f.dbits f.par f.stop f.brk f.flow f.dtr f.rts
  | .encLine => .encLine f.dbits f.par f.stop f.brk
  | .encBaud => .encBaud f.fam
  | .stripFrame => .stripFrame

/-- The decoder, total on all 2^32 words (30_encoding.md R72, R83). -/
def decode (w : Word) : Except DecodeError Instr :=
  match Opcode.ofCode (CmdFields.ofWord w).opc with
  | none => .error (.unassignedOpcode (CmdFields.ofWord w).opc)
  | some op =>
      if op.accepts w then .ok (op.assemble (CmdFields.ofWord w)) else .error (.unusedFieldNonZero op)

/-- The opcode of a command (30_encoding.md R81). -/
def Instr.opcode : Instr → Opcode
  | .reqReset => .reqReset
  | .reqModemCtrl _ _ => .reqModemCtrl
  | .reqFlowCtrl _ => .reqFlowCtrl
  | .reqSetBaud _ => .reqSetBaud
  | .reqSetLine _ _ _ _ => .reqSetLine
  | .reqPollStatus => .reqPollStatus
  | .reqConfigure _ _ _ _ _ _ _ _ => .reqConfigure
  | .encLine _ _ _ _ => .encLine
  | .encBaud _ => .encBaud
  | .stripFrame => .stripFrame

/-- The fields of a command's word: its opcode, the fields it uses, and zeros elsewhere
(30_encoding.md R72, R85: fields not named assemble as zero). -/
def Instr.fields (i : Instr) : CmdFields :=
  match i with
  | .reqReset => { opc := i.opcode.code }
  | .reqModemCtrl dtr rts => { opc := i.opcode.code, dtr := dtr, rts := rts }
  | .reqFlowCtrl flow => { opc := i.opcode.code, flow := flow }
  | .reqSetBaud fam => { opc := i.opcode.code, fam := fam }
  | .reqSetLine dbits par stop brk =>
      { opc := i.opcode.code, dbits := dbits, par := par, stop := stop, brk := brk }
  | .reqPollStatus => { opc := i.opcode.code }
  | .reqConfigure fam dbits par stop brk flow dtr rts =>
      { opc := i.opcode.code, fam := fam, dbits := dbits, par := par, stop := stop, brk := brk,
        flow := flow, dtr := dtr, rts := rts }
  | .encLine dbits par stop brk =>
      { opc := i.opcode.code, dbits := dbits, par := par, stop := stop, brk := brk }
  | .encBaud fam => { opc := i.opcode.code, fam := fam }
  | .stripFrame => { opc := i.opcode.code }

/-- The encoder: the 32-bit word of a command (30_encoding.md R70, R81). -/
def encode (i : Instr) : Word := i.fields.toWord

/-- The word the host presents for an instruction of `nbits` bits that are `w`: bits above `nbits` are
zero, and a command word has 32 bits (30_encoding.md R84). -/
def tableWord (nbits w : Nat) : Word := BitVec.ofNat 32 (w % 2 ^ nbits)

/-- What the decoder reads from an instruction of the opcode table. No command is longer than 32 bits
(30_encoding.md R84; log entry 8). -/
def decodeTableWord (nbits w : Nat) : Option Instr :=
  if nbits ≤ 32 then (decode (tableWord nbits w)).toOption else none

end Sys2Proof
end

