-- ==== Sys2Proof/Config.lean ====
section
/-!
DEFINITION. The two configuration parameters the spec leaves OPEN (00_scope.md R9, 10_state.md R23,
92_eei_decisions.md D16 and D24), as constants without a body: nothing can evaluate them, so what is
proved of them holds of every instance.
-/

namespace Sys2Proof.Config

/-- PORT_INDEX of this instance: any 8-bit value (00_scope.md R9).
DESIGN CHOICE (log entry 1): the instance's value is an uninterpreted constant. -/
opaque portIndex : BitVec 8

/-- How far MAX_PACKET of this instance lies above its least legal value 2: any number below 65534,
so that `maxPacket` ranges over exactly 2..65535 (00_scope.md R9).
DESIGN CHOICE (log entry 1). -/
opaque maxPacketAboveTwo : Fin 65534

/-- MAX_PACKET of this instance: 16 bits, at least 2 (00_scope.md R9, 70_reset_and_hazards.md R275). -/
def maxPacket : Half := BitVec.ofNat 16 (2 + maxPacketAboveTwo.val)

end Sys2Proof.Config
end

