-- ==== Sys2Proof/Machine/State.lean ====
section
/-!
DEFINITION. What the machine holds: the two configuration parameters, the transactions presented and
not yet answered with their inputs, and the answered transactions with their responses
(10_state.md R20 to R36, 70_reset_and_hazards.md R270); and the reasons a step can stop.
-/

namespace Sys2Proof.Machine

/-- A FRAME operand: bytes at addresses 0 to `flen - 1` (20_memory.md R50). `cells` lists, at rising
addresses, the bytes that differ from zero, so that equal frames are equal data; the byte of an
unlisted address below `flen` is zero.
DESIGN CHOICE (log entry 5): the list is a representation; the host supplies every byte of a frame. -/
structure Memory where
  flen : Nat
  cells : List Host.Cell
deriving DecidableEq, Repr

/-- One command transaction: the four inputs of 10_state.md R24. `agent` is the model's own tag for
the host agent that receives the response; no command reads it (60_exceptions.md R243, log entry 3). -/
structure Transaction where
  agent : Nat
  cmd : Word
  baud : Word
  frame : Memory
  nread : Half
deriving DecidableEq, Repr

/-- The direction of a control request (10_state.md R32). -/
inductive Direction where
  /-- host→device -/
  | out
  /-- device→host -/
  | in
deriving DecidableEq, Repr

/-- A ControlRequest record (10_state.md R32). -/
structure ControlRequest where
  dir : Direction
  bRequest : Byte
  wValue : Half
  wIndex : Half
  wLength : Half
deriving DecidableEq, Repr

/-- The response record (10_state.md R31). `none` is "no value" (10_state.md R34). -/
structure Response where
  status : Option Byte
  lineValue : Option Half
  divValue : Option Half
  divIndex : Option Half
  achieved : Option Word
  reqs : List ControlRequest
  payload : Option (List Byte)
  payloadLen : Option Half
deriving DecidableEq, Repr

/-- A transaction and the response the block returned for it. -/
structure Exchange where
  tx : Transaction
  response : Response
deriving DecidableEq, Repr

/-- The names of the status codes (60_exceptions.md R230). -/
inductive Status where
  | ok
  | invalidArgument
  | unsupportedBaud
  | illegalCommand
  | shortFrame
deriving DecidableEq, Repr

/-- The response fields that may hold no value (10_state.md R31, R34). -/
inductive ResponseField where
  | status
  | lineValue
  | divValue
  | divIndex
  | achieved
  | payload
  | payloadLen
deriving DecidableEq, Repr

/-- Why the model stops. The block itself has no fault: its errors are statuses
(60_exceptions.md R230, R236). -/
inductive Fault where
  /-- A meaning was run with no transaction presented: a response is the answer to one command
  (60_exceptions.md R238). Raised by `answer`; `step` never raises it. Safe (log entry 7). -/
  | noTransaction
  /-- A frame address outside 0..FLEN-1 was accessed, where `MemRead` is not defined
  (20_memory.md R50). Raised by `Memory.readByte` and `Memory.writeByte`. Safe (log entry 6). -/
  | frameAddress (addr : Nat)
  /-- A host read a response field that holds no value (10_state.md R34, item I11 of
  93_implementation_defined.md). Raised by the readers of `Response`; no command raises it.
  Safe (log entry 12). -/
  | noValue (field : ResponseField)
deriving DecidableEq, Repr

/-- Why the model has no meaning for something. -/
inductive Refusal where
  /-- The instruction has no meaning yet. Raised by an arm of `exec`; no arm raises it now. Safe. -/
  | notModelled (mnemonic : String)
deriving DecidableEq, Repr

/-- The state of the machine. -/
structure State where
  /-- PORT_INDEX (00_scope.md R9, 10_state.md R23). -/
  portIndex : BitVec 8
  /-- MAX_PACKET (00_scope.md R9, 10_state.md R23). -/
  maxPacket : Half
  /-- The transactions presented and not yet answered, the next one to be answered first
  (10_state.md R24, 20_memory.md R59; log entry 2). -/
  presented : List Transaction
  /-- The answered transactions with their responses, oldest first (10_state.md R31; log entry 3). -/
  completed : List Exchange
deriving DecidableEq, Repr

/-- The machine right after reset: no transaction in progress, no response value, and the parameters
at the values the instance was created with (70_reset_and_hazards.md R270, 10_state.md R36;
log entry 1). -/
def State.reset : State where
  portIndex := Config.portIndex
  maxPacket := Config.maxPacket
  presented := []
  completed := []

end Sys2Proof.Machine
end

