-- ==== Sys2Proof/Machine/Flags.lean ====
section
/-!
DEFINITION. The only status indication the block has, the STATUS field of a response: its codes, which
of them are errors, and their priority (10_state.md R22, 60_exceptions.md R230, R235).
-/

namespace Sys2Proof.Machine

/-- The 8-bit code of a status (60_exceptions.md R230). -/
def Status.code : Status → Byte
  | .ok => 0x00
  | .invalidArgument => 0x01
  | .unsupportedBaud => 0x02
  | .illegalCommand => 0x03
  | .shortFrame => 0x04

/-- Which statuses are errors (60_exceptions.md R230, R236): OK and SHORT_FRAME are not. -/
def Status.isError : Status → Bool
  | .ok => false
  | .invalidArgument => true
  | .unsupportedBaud => true
  | .illegalCommand => true
  | .shortFrame => false

/-- The place of a status in the order in which simultaneous causes are reported, the first reported
first (60_exceptions.md R235). -/
def Status.priority : Status → Nat
  | .illegalCommand => 1
  | .invalidArgument => 2
  | .unsupportedBaud => 3
  | .shortFrame => 4
  | .ok => 5

end Sys2Proof.Machine
end

