-- ==== Sys2Proof/Machine/Tables.lean ====
section
/-!
DEFINITION. The constant ROM tables and numeric constants (10_state.md R25 to R30).
-/

namespace Sys2Proof.Machine

/-- FRAC_CODE, indexed by the divisor fraction in eighths (10_state.md R25). -/
def fracCodeRom : Vector Nat 8 := #v[0, 3, 2, 4, 1, 5, 6, 7]

/-- AM_ADJUST_DN (10_state.md R26; the spec marks the entries as general knowledge, log entry 10). -/
def amAdjustDnRom : Vector Nat 8 := #v[0, 0, 0, 1, 0, 1, 2, 3]

/-- AM_ADJUST_UP (10_state.md R27; the spec marks the entries as general knowledge, log entry 10). -/
def amAdjustUpRom : Vector Nat 8 := #v[0, 0, 0, 1, 0, 3, 2, 1]

/-- `f = d8 & 7`, the fraction of a divisor counted in eighths (00_scope.md R14, 10_state.md R25). -/
def fraction (d8 : Nat) : Nat := d8 &&& 7

/-- `T[d8 & 7]` of an 8-entry ROM (00_scope.md R13). -/
def romAt (rom : Vector Nat 8) (d8 : Nat) : Nat := rom.toList.getD (fraction d8) 0

/-- AM_CLK (10_state.md R28). -/
def amClk : Nat := 24000000

/-- C_CLK (10_state.md R28). -/
def cClk : Nat := 48000000

/-- H_CLK (10_state.md R28). -/
def hClk : Nat := 120000000

/-- C_DIV (10_state.md R28). -/
def cDiv : Nat := 16

/-- H_DIV (10_state.md R28). -/
def hDiv : Nat := 10

/-- H_THRESHOLD = H_CLK / 0x3FFF (10_state.md R28). -/
def hThreshold : Nat := hClk / 0x3FFF

/-- GEN_MAX_D8 (10_state.md R28). -/
def genMaxD8 : Nat := 0x1FFFF

/-- AM_MIN_D8 (10_state.md R28). -/
def amMinD8 : Nat := 8

/-- AM_MAX_D8 (10_state.md R28; log entry 10). -/
def amMaxD8 : Nat := 0x1FFF8

/-- H_CLK_FLAG, bit 17 of the encoded divisor (10_state.md R28). -/
def hClkFlag : Nat := 0x20000

/-- HEADER_LEN, the length of the modem-status header (10_state.md R28, 43_frame_strip.md R210). -/
def headerLen : Nat := 2

/-- TOL_PCT (10_state.md R28). -/
def tolPct : Nat := 3

/-- SIO_RESET (10_state.md R29). -/
def sioReset : Byte := 0x00

/-- SIO_SET_MODEM_CTRL (10_state.md R29). -/
def sioSetModemCtrl : Byte := 0x01

/-- SIO_SET_FLOW_CTRL (10_state.md R29). -/
def sioSetFlowCtrl : Byte := 0x02

/-- SIO_SET_BAUD_RATE (10_state.md R29). -/
def sioSetBaudRate : Byte := 0x03

/-- SIO_SET_DATA, set line properties (10_state.md R29). -/
def sioSetData : Byte := 0x04

/-- SIO_POLL_MODEM_STATUS (10_state.md R29). -/
def sioPollModemStatus : Byte := 0x05

/-- The flow-control value of a mode (10_state.md R30). -/
def flowValue : FlowMode → Half
  | .disable => 0x00 <<< 8
  | .rtsCts => 0x01 <<< 8
  | .dtrDsr => 0x02 <<< 8
  | .xonXoff => 0x04 <<< 8

/-- The DTR mask (10_state.md R30). -/
def dtrMask : Half := 0x1

/-- The RTS mask (10_state.md R30). -/
def rtsMask : Half := 0x2

end Sys2Proof.Machine
end

