-- ==== Sys2Proof/Machine/Ops.lean ====
section
/-!
DEFINITION. The named operations of the machine: reading and filling a frame (20_memory.md R50 to R56),
building a response (10_state.md R31, R34), ending a command with a status (60_exceptions.md R236),
answering the presented transaction (10_state.md R31), and the inputs of the environment: presenting
a command and resetting the block (60_exceptions.md R246, 70_reset_and_hazards.md R270 to R272).
-/

namespace Sys2Proof.Machine

/-! ### The frame operand -/

/-- What an address that `cells` does not list reads as (log entry 5). -/
def unlistedByte : Byte := 0

/-- The byte of a list of cells at an address. -/
def cellsRead : List Host.Cell → Nat → Byte
  | [], _ => unlistedByte
  | (a, b) :: rest, x => if a = x then b else cellsRead rest x

/-- The byte of a frame at an address, taken from its cells. -/
def Memory.byteAt (m : Memory) (addr : Nat) : Byte := cellsRead m.cells addr

/-- `MemRead(FRAME + addr, 1)`, defined only for `0 ≤ addr < FLEN` (20_memory.md R50). -/
def Memory.readByte (m : Memory) (addr : Nat) : Except Fault Byte :=
  if addr < m.flen then .ok (m.byteAt addr) else .error (.frameAddress addr)

/-- The bytes at `start`, `start + 1`, …, `count` of them, in increasing address order
(20_memory.md R52). -/
def Memory.readRange (m : Memory) (start : Nat) : Nat → Except Fault (List Byte)
  | 0 => .ok []
  | count + 1 =>
      match m.readByte start with
      | .error f => .error f
      | .ok b =>
          match m.readRange (start + 1) count with
          | .error f => .error f
          | .ok bs => .ok (b :: bs)

/-- A list of cells with the byte at one address replaced: the list stays in rising order and lists no
byte equal to `unlistedByte`. -/
def cellsWrite : List Host.Cell → Nat → Byte → List Host.Cell
  | [], x, v => if v = unlistedByte then [] else [(x, v)]
  | (a, b) :: rest, x, v =>
      if a < x then (a, b) :: cellsWrite rest x v
      else if a = x then (if v = unlistedByte then rest else (x, v) :: rest)
      else if v = unlistedByte then (a, b) :: rest
      else (x, v) :: (a, b) :: rest

/-- A host writes one byte of its frame buffer between transactions; no command does
(20_memory.md R50, R56). -/
def Memory.writeByte (m : Memory) (addr : Nat) (v : Byte) : Except Fault Memory :=
  if addr < m.flen then .ok { m with cells := cellsWrite m.cells addr v } else .error (.frameAddress addr)

/-- The cells of a sequence of bytes whose first byte is at address `addr`. -/
def cellsOfBytes (addr : Nat) : List Byte → List Host.Cell
  | [] => []
  | b :: rest =>
      if b = unlistedByte then cellsOfBytes (addr + 1) rest else (addr, b) :: cellsOfBytes (addr + 1) rest

/-- The frame operand that holds a byte sequence; address 0 is its first byte (20_memory.md R50). -/
def Memory.ofBytes (bs : List Byte) : Memory where
  flen := bs.length
  cells := cellsOfBytes 0 bs

/-- The byte sequence a frame operand holds (20_memory.md R50). -/
def Memory.bytes (m : Memory) : List Byte := (List.range m.flen).map m.byteAt

/-- A transfer overwrites a reused buffer from address `addr` on; the bytes past it stay as they were,
which are the stale bytes of 20_memory.md R56. -/
def Memory.overwrite (m : Memory) (addr : Nat) : List Byte → Except Fault Memory
  | [] => .ok m
  | b :: rest =>
      match m.writeByte addr b with
      | .error f => .error f
      | .ok m' => m'.overwrite (addr + 1) rest

/-- A list of cells is in canonical form from an address on: addresses rise strictly, lie below
`flen`, and no listed byte is what an unlisted address reads as. -/
def cellsWf (flen : Nat) : Nat → List Host.Cell → Bool
  | _, [] => true
  | low, (a, b) :: rest =>
      decide (low ≤ a) && decide (a < flen) && decide (b ≠ unlistedByte) && cellsWf flen (a + 1) rest

/-- The canonical form of a frame operand (log entry 5). -/
def Memory.wf (m : Memory) : Bool := cellsWf m.flen 0 m.cells

/-- Every frame operand a state holds is in canonical form. -/
def State.memoryWf (s : State) : Bool :=
  s.presented.all (fun tx => tx.frame.wf) && s.completed.all (fun e => e.tx.frame.wf)

/-! ### The response record -/

/-- The record in which no field holds a value (10_state.md R34, R36), but that REQS is the empty list.
REQS is always a list (R31), while R36 says that no response field holds a value before the first command
completes: that REQS then reads as the empty list, with no fault, is DESIGN CHOICE (log entry 19). -/
def Response.noValue : Response where
  status := none
  lineValue := none
  divValue := none
  divIndex := none
  achieved := none
  reqs := []
  payload := none
  payloadLen := none

/-- A response that so far holds its STATUS only (10_state.md R31). -/
def Response.ofStatus (st : Status) : Response := { Response.noValue with status := some st.code }

/-- `raise <Status>`: the command ends at once; the response holds the status, no requests and no other
field (00_scope.md R13, 60_exceptions.md R236). This is the block's whole exception entry; there is no
vector, no handler and no return (60_exceptions.md R236, R237). -/
def raise (st : Status) : Response := Response.ofStatus st

/-- `emit(r)`: append a request to REQS (00_scope.md R13). -/
def Response.emit (r : Response) (q : ControlRequest) : Response := { r with reqs := r.reqs ++ [q] }

/-- `set LINE_VALUE <- v` (00_scope.md R13). -/
def Response.setLineValue (r : Response) (v : Half) : Response := { r with lineValue := some v }

/-- `set PAYLOAD <- bs` and `set PAYLOAD_LEN <- n` (00_scope.md R13). -/
def Response.setPayload (r : Response) (bs : List Byte) (n : Half) : Response :=
  { r with payload := some bs, payloadLen := some n }

/-- `set DIV_VALUE`, `set DIV_INDEX` and `set ACHIEVED` (00_scope.md R13). -/
def Response.setBaud (r : Response) (value index : Half) (ach : Word) : Response :=
  { r with divValue := some value, divIndex := some index, achieved := some ach }

/-- A host reads a response field: reading one that holds no value is a fault of the reader
(10_state.md R34). -/
def readField {α : Type} (field : ResponseField) (value : Option α) : Except Fault α :=
  match value with
  | some v => .ok v
  | none => .error (.noValue field)

/-- The host reads STATUS (10_state.md R31, R34). -/
def Response.readStatus (r : Response) : Except Fault Byte := readField .status r.status

/-- The host reads LINE_VALUE (10_state.md R31, R34). -/
def Response.readLineValue (r : Response) : Except Fault Half := readField .lineValue r.lineValue

/-- The host reads DIV_VALUE (10_state.md R31, R34). -/
def Response.readDivValue (r : Response) : Except Fault Half := readField .divValue r.divValue

/-- The host reads DIV_INDEX (10_state.md R31, R34). -/
def Response.readDivIndex (r : Response) : Except Fault Half := readField .divIndex r.divIndex

/-- The host reads ACHIEVED (10_state.md R31, R34). -/
def Response.readAchieved (r : Response) : Except Fault Word := readField .achieved r.achieved

/-- The host reads PAYLOAD (10_state.md R31, R34). -/
def Response.readPayload (r : Response) : Except Fault (List Byte) := readField .payload r.payload

/-- The host reads PAYLOAD_LEN (10_state.md R31, R34). -/
def Response.readPayloadLen (r : Response) : Except Fault Half := readField .payloadLen r.payloadLen

/-! ### Answering a transaction -/

/-- The transaction `tx` is answered with `r`, and `rest` are the transactions still presented. The
exchange keeps the transaction as it was presented: no command writes its operands
(10_state.md R31, 20_memory.md R50). -/
def State.answered (s : State) (tx : Transaction) (rest : List Transaction) (r : Response) : State :=
  { s with presented := rest, completed := s.completed ++ [⟨tx, r⟩] }

/-- A command computes its response from the operands of the transaction in progress, and the block
returns the whole response at once (20_memory.md R58). Every response is the answer to one command
(60_exceptions.md R238), so without a transaction there is nothing to answer (log entry 7). -/
def answer (body : Transaction → Except Fault Response) (s : State) :
    Host.Outcome State Fault Refusal :=
  match s.presented with
  | [] => .fault .noTransaction
  | tx :: rest =>
      match body tx with
      | .error f => .fault f
      | .ok r => .next (s.answered tx rest r)

/-- The response to the command completed last; before the first command completes, no field holds a
value (10_state.md R36), but that REQS is the empty list (log entry 19). -/
def State.lastResponse (s : State) : Response :=
  match s.completed.getLast? with
  | some e => e.response
  | none => Response.noValue

/-- The responses an agent has received, oldest first: each agent receives its own
(60_exceptions.md R243). -/
def State.responsesTo (s : State) (agent : Nat) : List Response :=
  (s.completed.filter fun e => e.tx.agent == agent).map fun e => e.response

/-! ### The decoding step -/

/-- The command word of the transaction in progress. The block fetches nothing: the word is presented
(10_state.md R21, 30_encoding.md R70). -/
def State.presentedWord (s : State) : Option Word :=
  match s.presented with
  | [] => none
  | tx :: _ => some tx.cmd

/-- A word that spells no command gives ILLEGAL_COMMAND, whatever the cause; the response records
nothing else (60_exceptions.md R231). -/
def rejectWord (_why : DecodeError) (s : State) : Host.Outcome State Fault Refusal :=
  answer (fun _ => .ok (raise .illegalCommand)) s

/-- With no transaction presented the block does nothing: it never starts an action of its own
(60_exceptions.md R238; log entry 4). -/
def idle (s : State) : Host.Outcome State Fault Refusal := .next s

/-! ### Inputs of the environment -/

/-- A host presents a command (60_exceptions.md R246); it is answered after those presented before it
(log entry 2). -/
def State.present (s : State) (tx : Transaction) : State := { s with presented := s.presented ++ [tx] }

/-- A reset of the block: the transactions in progress are abandoned without a response, every response
field holds no value, and the parameters keep the values the instance was created with
(70_reset_and_hazards.md R270, R272; log entry 9). -/
def State.blockReset (s : State) : State := { s with presented := [], completed := [] }

/-- The frame of a transaction that hands over no frame: the empty byte sequence. -/
def Memory.empty : Memory := Memory.ofBytes []

/-- A transaction of a command word whose other operands are zero and empty: a command ignores the
inputs it does not read (10_state.md R24; log entry 8). -/
def Transaction.ofWord (c : Word) : Transaction where
  agent := 0
  cmd := c
  baud := 0
  frame := Memory.empty
  nread := 0

/-- The word `c` stands as the next command: in the transaction presented next, or, where none is
presented, in a transaction of its own (log entry 8). -/
def State.withWord (s : State) (c : Word) : State :=
  match s.presented with
  | [] => { s with presented := [Transaction.ofWord c] }
  | tx :: rest => { s with presented := { tx with cmd := c } :: rest }

end Sys2Proof.Machine
end

