-- ==== Sys2Proof/Machine/Operands.lean ====
section
/-!
DEFINITION. The operand forms: the legal values of each field of the command word (30_encoding.md R74 to
R80, R82), the two numeric operands BAUD and NREAD (R73), and what a command does on an illegal
argument (60_exceptions.md R232).
-/

namespace Sys2Proof.Machine

/-- FAM: 0 = AM, 1 = BM, 2 = H; 3 is not a family (30_encoding.md R75). -/
def familyOf (fam : BitVec 2) : Option Family :=
  match fam.toNat with
  | 0 => some .am
  | 1 => some .bm
  | 2 => some .h
  | _ => none

/-- DBITS: the data-bit count as a plain number, 7 or 8 (30_encoding.md R76). -/
def dataBitsOf (dbits : BitVec 4) : Option DataBits :=
  match dbits.toNat with
  | 7 => some .seven
  | 8 => some .eight
  | _ => none

/-- PAR: the parity code (30_encoding.md R77). -/
def parityOf (par : BitVec 3) : Option Parity :=
  match par.toNat with
  | 0 => some .none
  | 1 => some .odd
  | 2 => some .even
  | 3 => some .mark
  | 4 => some .space
  | _ => none

/-- STOP: a selector, 0 = 1, 1 = 1.5, 2 = 2 stop bits (30_encoding.md R78). -/
def stopBitsOf (stop : BitVec 2) : Option StopBits :=
  match stop.toNat with
  | 0 => some .one
  | 1 => some .oneAndHalf
  | 2 => some .two
  | _ => none

/-- BRK: 0 = break off, 1 = break on; both are legal (30_encoding.md R79). -/
def breakOf (brk : BitVec 1) : Bool := brk.toNat == 1

/-- FLOW: the high byte of the flow-control code (30_encoding.md R80). -/
def flowModeOf (flow : BitVec 3) : Option FlowMode :=
  match flow.toNat with
  | 0 => some .disable
  | 1 => some .rtsCts
  | 2 => some .dtrDsr
  | 4 => some .xonXoff
  | _ => none

/-- DTR and RTS: 0 = leave unchanged, 2 = drive low, 3 = drive high (30_encoding.md R82). -/
def lineSelOf (sel : BitVec 2) : Option LineSel :=
  match sel.toNat with
  | 0 => some .keep
  | 2 => some .low
  | 3 => some .high
  | _ => none

/-- The line configuration of the four line fields, if DBITS, PAR and STOP are all legal
(30_encoding.md R76 to R79). -/
def lineConfigOf (dbits : BitVec 4) (par : BitVec 3) (stop : BitVec 2) (brk : BitVec 1) :
    Option LineConfig :=
  match dataBitsOf dbits, parityOf par, stopBitsOf stop with
  | some d, some p, some s => some { dataBits := d, parity := p, stopBits := s, brk := breakOf brk }
  | _, _, _ => none

/-- `sext_32(BAUD)`, the requested rate as a signed number (30_encoding.md R73). -/
def baudOperand (baud : Word) : Int := baud.toInt

/-- The requested rate, if it is positive: 0 and every negative value are illegal
(41_baud_encoding.md R120). -/
def baudRateOf (baud : Word) : Option Nat :=
  if baudOperand baud ≤ 0 then none else some (baudOperand baud).toNat

/-- `zext_16(NREAD)` (30_encoding.md R73). -/
def nreadOperand (nread : Half) : Nat := nread.toNat

/-- A command goes on with an argument that is legal and raises INVALID_ARGUMENT on one that is not
(60_exceptions.md R232). -/
def withArgument {α : Type} (arg : Option α) (body : α → Response) : Response :=
  match arg with
  | none => raise .invalidArgument
  | some a => body a

end Sys2Proof.Machine
end

