-- ==== Sys2Proof/Machine/BaudEncoding.lean ====
section
/-!
DEFINITION. The baud-divisor calculator, `BAUD_ENCODE` (41_baud_encoding.md R120 to R156). Divisors are
counted in eighths of the 3 MHz base divisor unit (00_scope.md R14); all arithmetic is on unbounded
numbers with floor division (00_scope.md R12).
-/

namespace Sys2Proof.Machine

/-- An encoded divisor before it is split, and the achieved rate (41_baud_encoding.md R121). -/
structure EncodedRate where
  enc : Nat
  ach : Nat
deriving DecidableEq, Repr

/-- The BaudResult record (00_scope.md R15, 41_baud_encoding.md R155). -/
structure BaudResult where
  req : Nat
  ach : Nat
  value : Half
  index : Half
deriving DecidableEq, Repr

/-- A candidate of the AM search: adjusted divisor, estimated rate, error
(41_baud_encoding.md R127 to R130). -/
structure AmCandidate where
  t : Nat
  est : Nat
  diff : Nat
deriving DecidableEq, Repr

/-- `|a - b|` (00_scope.md R12). -/
def absDiff (a b : Nat) : Nat := ((a : Int) - (b : Int)).natAbs

/-- `(d8 >> 3) | (FRAC_CODE[d8 & 7] << 14)`: the integer part in the low bits, the fractional code in
bits 16:14 (41_baud_encoding.md R132, R145). -/
def packDivisor (d8 : Nat) : Nat := d8 >>> 3 ||| romAt fracCodeRom d8 <<< 14

/-! ### The AM path -/

/-- The initial divisor, rounded down to a fraction the AM part supports
(41_baud_encoding.md R125, R126). -/
def amStart (baud : Nat) : Nat := amClk / baud - romAt amAdjustDnRom (amClk / baud)

/-- A candidate adjusted to a divisor the AM part supports, the branches in this order
(41_baud_encoding.md R128). -/
def amAdjust (t : Nat) : Nat :=
  if t ≤ 8 then amMinD8
  else if t < 16 then 16
  else min (t + romAt amAdjustUpRom t) amMaxD8

/-- The estimated rate of a divisor, to the nearest integer with halves rounded up
(41_baud_encoding.md R129). -/
def amEstimate (t : Nat) : Nat := (amClk + t / 2) / t

/-- Candidate `i` of the AM search (41_baud_encoding.md R127 to R130). -/
def amCandidate (baud i : Nat) : AmCandidate :=
  let t := amAdjust (amStart baud + i)
  { t := t, est := amEstimate t, diff := absDiff (amEstimate t) baud }

/-- The surviving candidate: candidate 1 replaces candidate 0 only if its error is strictly smaller, and
it is not evaluated when candidate 0 is exact (41_baud_encoding.md R131). -/
def amSurvivor (baud : Nat) : AmCandidate :=
  let c0 := amCandidate baud 0
  if c0.diff = 0 then c0
  else
    let c1 := amCandidate baud 1
    if c1.diff < c0.diff then c1 else c0

/-- The two special encoded values (41_baud_encoding.md R133). -/
def amRemap (enc : Nat) : Nat :=
  if enc = 0x0001 then 0x0000 else if enc = 0x4001 then 0x0001 else enc

/-- `AM_PATH` (41_baud_encoding.md R131 to R134). -/
def amPath (baud : Nat) : EncodedRate :=
  let best := amSurvivor baud
  { enc := amRemap (packDivisor best.t), ach := best.est }

/-! ### The general path -/

/-- Halving, rounding half up (41_baud_encoding.md R143, R144). -/
def halveUp (n : Nat) : Nat := (n + 1) >>> 1

/-- The clamped divisor of the fractional search (41_baud_encoding.md R143). -/
def generalDivisor (baud clk div : Nat) : Nat := min (halveUp (clk * 16 / div / baud)) genMaxD8

/-- `GENERAL(baud, clk, div)`: three fast paths, then the fractional search
(41_baud_encoding.md R140 to R145). -/
def general (baud clk div : Nat) : EncodedRate :=
  if baud ≥ clk / div then { enc := 0, ach := clk / div }
  else if baud ≥ clk / (div + div / 2) then { enc := 1, ach := clk / (div + div / 2) }
  else if baud ≥ clk / (2 * div) then { enc := 2, ach := clk / (2 * div) }
  else
    let d8 := generalDivisor baud clk div
    { enc := packDivisor d8, ach := halveUp (clk * 16 / div / d8) }

/-! ### Path selection, split and result -/

/-- The path is selected by family, and for H also by the rate (41_baud_encoding.md R121). -/
def encodedRate (baud : Nat) (fam : Family) : EncodedRate :=
  match fam with
  | .am => amPath baud
  | .bm => general baud cClk cDiv
  | .h =>
      if baud * 10 > hThreshold then
        let r := general baud hClk hDiv
        { r with enc := r.enc ||| hClkFlag }
      else general baud cClk cDiv

/-- The divisor value: the low 16 bits of the encoded divisor (41_baud_encoding.md R150). -/
def divisorValue (enc : Nat) : Half := BitVec.ofNat 16 (enc &&& 0xFFFF)

/-- The divisor index: the high bits for AM and BM (41_baud_encoding.md R151); for H the high bits in the
high byte and PORT_INDEX in the low byte (41_baud_encoding.md R152). -/
def divisorIndex (fam : Family) (portIndex : BitVec 8) (enc : Nat) : Half :=
  match fam with
  | .am => BitVec.ofNat 16 (enc >>> 16)
  | .bm => BitVec.ofNat 16 (enc >>> 16)
  | .h => BitVec.ofNat 16 (enc >>> 8 &&& 0xFF00 ||| portIndex.toNat)

/-- `BAUD_ENCODE` for a positive rate and a family (41_baud_encoding.md R120, R155). -/
def baudEncode (baud : Nat) (fam : Family) (portIndex : BitVec 8) : BaudResult :=
  let r := encodedRate baud fam
  { req := baud, ach := r.ach, value := divisorValue r.enc,
    index := divisorIndex fam portIndex r.enc }

/-- `TOL_OK(req, ach)`: within 3%, a deviation of exactly 3% included (41_baud_encoding.md R156). -/
def tolOk (req ach : Nat) : Bool := 100 * absDiff ach req ≤ tolPct * req

/-- A command that consumes a BaudResult goes on if the rate is within tolerance and raises
UNSUPPORTED_BAUD otherwise (60_exceptions.md R234). -/
def withTolerance (r : BaudResult) (body : BaudResult → Response) : Response :=
  if tolOk r.req r.ach then body r else raise .unsupportedBaud

/-- The response with the three BaudResult fields written (41_baud_encoding.md R158). -/
def Response.setResult (r : Response) (b : BaudResult) : Response :=
  r.setBaud b.value b.index (BitVec.ofNat 32 b.ach)

end Sys2Proof.Machine
end

