-- ==== Sys2Proof/Machine/LineEncoding.lean ====
section
/-!
DEFINITION. The line-encoding packer, `LINE_ENCODE` (40_line_encoding.md R100 to R105).
-/

namespace Sys2Proof.Machine

/-- The data-bit count, placed at bits 7:0 (40_line_encoding.md R101). -/
def dataBitsCode : DataBits → Half
  | .seven => 7
  | .eight => 8

/-- The parity code, placed at bits 10:8 (40_line_encoding.md R102). -/
def parityCode : Parity → Half
  | .none => 0
  | .odd => 1
  | .even => 2
  | .mark => 3
  | .space => 4

/-- STOP_CODE, placed at bits 13:11: 1.5 and 2 stop bits both give code 1 (40_line_encoding.md R103). -/
def stopCode : StopBits → Half
  | .one => 0
  | .oneAndHalf => 1
  | .two => 1

/-- The break flag, placed at bit 14 (40_line_encoding.md R104). -/
def breakCode (brk : Bool) : Half := if brk then 1 else 0

/-- `LINE_ENCODE`: the OR of the four fields, each at its own offset (40_line_encoding.md R100). -/
def lineEncode (c : LineConfig) : Half :=
  dataBitsCode c.dataBits ||| parityCode c.parity <<< 8 ||| stopCode c.stopBits <<< 11
    ||| breakCode c.brk <<< 14

end Sys2Proof.Machine
end

