-- ==== Sys2Proof/Machine/EncoderCommands.lean ====
section
/-!
DEFINITION. The meanings of the two commands that expose the encoders on their own: ENC_LINE
(40_line_encoding.md R106) and ENC_BAUD (41_baud_encoding.md R158).
-/

namespace Sys2Proof.Machine

/-- The response of ENC_LINE (40_line_encoding.md R106). -/
def encLineResponse (dbits : BitVec 4) (par : BitVec 3) (stop : BitVec 2) (brk : BitVec 1) : Response :=
  withArgument (lineConfigOf dbits par stop brk) fun c =>
  (Response.ofStatus .ok).setLineValue (lineEncode c)

/-- ENC_LINE (40_line_encoding.md R106). -/
def execEncLine (dbits : BitVec 4) (par : BitVec 3) (stop : BitVec 2) (brk : BitVec 1) (s : State) :
    Host.Outcome State Fault Refusal :=
  answer (fun _ => .ok (encLineResponse dbits par stop brk)) s

/-- The response of ENC_BAUD: no tolerance check and no request (41_baud_encoding.md R158). -/
def encBaudResponse (portIndex : BitVec 8) (fam : BitVec 2) (baud : Word) : Response :=
  withArgument (familyOf fam) fun f =>
  withArgument (baudRateOf baud) fun b =>
  (Response.ofStatus .ok).setResult (baudEncode b f portIndex)

/-- ENC_BAUD (41_baud_encoding.md R158). -/
def execEncBaud (fam : BitVec 2) (s : State) : Host.Outcome State Fault Refusal :=
  answer (fun tx => .ok (encBaudResponse s.portIndex fam tx.baud)) s

end Sys2Proof.Machine
end

