-- ==== Sys2Proof/Machine/FrameCommands.lean ====
section
/-!
DEFINITION. The frame header stripper and its command STRIP_FRAME (43_frame_strip.md R210 to R215).
-/

namespace Sys2Proof.Machine

/-- The response of STRIP_FRAME: an oversize buffer and a count beyond the buffer are illegal arguments
(43_frame_strip.md R212), a count below the header gives an empty payload and SHORT_FRAME (R213), and
otherwise the payload is the bytes from 2 up to the count (R214). -/
def stripFrameResponse (maxPacket : Half) (frame : Memory) (nread : Half) : Except Fault Response :=
  if frame.flen > maxPacket.toNat then .ok (raise .invalidArgument)
  else if nreadOperand nread > frame.flen then .ok (raise .invalidArgument)
  else if nreadOperand nread < headerLen then .ok ((Response.ofStatus .shortFrame).setPayload [] 0)
  else
    match frame.readRange headerLen (nreadOperand nread - headerLen) with
    | .error f => .error f
    | .ok bs =>
        .ok ((Response.ofStatus .ok).setPayload bs (BitVec.ofNat 16 (nreadOperand nread - headerLen)))

/-- STRIP_FRAME (43_frame_strip.md R215). -/
def execStripFrame (s : State) : Host.Outcome State Fault Refusal :=
  answer (fun tx => stripFrameResponse s.maxPacket tx.frame tx.nread) s

end Sys2Proof.Machine
end

