-- ==== Sys2Proof/Machine/ControlRequests.lean ====
section
/-!
DEFINITION. The records the control-request assembler builds (42_control_requests.md R170, R175, R176).
-/

namespace Sys2Proof.Machine

/-- A host→device request: OUT, wLength 0 (42_control_requests.md R170). -/
def outRequest (code : Byte) (value index : Half) : ControlRequest where
  dir := .out
  bRequest := code
  wValue := value
  wIndex := index
  wLength := 0

/-- The reset request (42_control_requests.md R170, R172). -/
def resetRequest : ControlRequest := outRequest sioReset 0x0000 0x0000

/-- The pattern of a modem line: its mask in the high byte, its level at the mask's place in the low byte;
a line left unchanged contributes nothing (42_control_requests.md R175, R176; the spec marks the
composition as general knowledge, log entry 10). -/
def linePattern (mask : Half) : LineSel → Half
  | .keep => 0
  | .low => mask <<< 8
  | .high => mask <<< 8 ||| mask

/-- `MODEM_VALUE`: both lines' patterns, ORed (42_control_requests.md R176). -/
def modemValue (dtr rts : LineSel) : Half := linePattern dtrMask dtr ||| linePattern rtsMask rts

/-- The set-modem-control request (42_control_requests.md R170, R177). -/
def modemRequest (dtr rts : LineSel) : ControlRequest :=
  outRequest sioSetModemCtrl (modemValue dtr rts) 0x0000

/-- The set-flow-control request: the mode's code in wValue, wIndex 0 (42_control_requests.md R179). -/
def flowRequest (m : FlowMode) : ControlRequest := outRequest sioSetFlowCtrl (flowValue m) 0x0000

/-- The set-baud-rate request (42_control_requests.md R170, R181). -/
def baudRequest (b : BaudResult) : ControlRequest := outRequest sioSetBaudRate b.value b.index

/-- The set-line-properties request (42_control_requests.md R170, R183). -/
def lineRequest (c : LineConfig) : ControlRequest := outRequest sioSetData (lineEncode c) 0x0000

/-- The poll-modem-status request, the only IN request; it reads 2 bytes
(42_control_requests.md R170, R185; log entry 10). -/
def pollRequest : ControlRequest where
  dir := .in
  bRequest := sioPollModemStatus
  wValue := 0x0000
  wIndex := 0x0000
  wLength := 2

/-- Neither modem line is selected (42_control_requests.md R177, R187). -/
def bothKeep (dtr rts : LineSel) : Bool := dtr = .keep && rts = .keep

end Sys2Proof.Machine
end

