-- ==== Sys2Proof/Machine/RequestCommands.lean ====
section
/-!
DEFINITION. The meanings of the seven commands that assemble control requests
(42_control_requests.md R172 to R187). The word test of each rule's first line is the decoder's
(30_encoding.md R72).
-/

namespace Sys2Proof.Machine

/-- The response of REQ_RESET (42_control_requests.md R172). -/
def reqResetResponse : Response := (Response.ofStatus .ok).emit resetRequest

/-- REQ_RESET (42_control_requests.md R172). It does not reset the block (70_reset_and_hazards.md R273). -/
def execReqReset (s : State) : Host.Outcome State Fault Refusal :=
  answer (fun _ => .ok reqResetResponse) s

/-- The response of REQ_MODEM_CTRL: both selectors legal, and not both 0
(42_control_requests.md R177). -/
def reqModemCtrlResponse (dtr rts : BitVec 2) : Response :=
  withArgument (lineSelOf dtr) fun d =>
  withArgument (lineSelOf rts) fun r =>
  if bothKeep d r then raise .invalidArgument
  else (Response.ofStatus .ok).emit (modemRequest d r)

/-- REQ_MODEM_CTRL (42_control_requests.md R177). -/
def execReqModemCtrl (dtr rts : BitVec 2) (s : State) : Host.Outcome State Fault Refusal :=
  answer (fun _ => .ok (reqModemCtrlResponse dtr rts)) s

/-- The response of REQ_FLOW_CTRL (42_control_requests.md R179). -/
def reqFlowCtrlResponse (flow : BitVec 3) : Response :=
  withArgument (flowModeOf flow) fun m => (Response.ofStatus .ok).emit (flowRequest m)

/-- REQ_FLOW_CTRL (42_control_requests.md R179). -/
def execReqFlowCtrl (flow : BitVec 3) (s : State) : Host.Outcome State Fault Refusal :=
  answer (fun _ => .ok (reqFlowCtrlResponse flow)) s

/-- The response of REQ_SET_BAUD: arguments, then tolerance, then the request
(42_control_requests.md R181). -/
def reqSetBaudResponse (portIndex : BitVec 8) (fam : BitVec 2) (baud : Word) : Response :=
  withArgument (familyOf fam) fun f =>
  withArgument (baudRateOf baud) fun b =>
  withTolerance (baudEncode b f portIndex) fun res =>
  ((Response.ofStatus .ok).emit (baudRequest res)).setResult res

/-- REQ_SET_BAUD (42_control_requests.md R181). -/
def execReqSetBaud (fam : BitVec 2) (s : State) : Host.Outcome State Fault Refusal :=
  answer (fun tx => .ok (reqSetBaudResponse s.portIndex fam tx.baud)) s

/-- The response of REQ_SET_LINE: the value is carried only in the request
(42_control_requests.md R183). -/
def reqSetLineResponse (dbits : BitVec 4) (par : BitVec 3) (stop : BitVec 2) (brk : BitVec 1) :
    Response :=
  withArgument (lineConfigOf dbits par stop brk) fun c =>
  (Response.ofStatus .ok).emit (lineRequest c)

/-- REQ_SET_LINE (42_control_requests.md R183). -/
def execReqSetLine (dbits : BitVec 4) (par : BitVec 3) (stop : BitVec 2) (brk : BitVec 1) (s : State) :
    Host.Outcome State Fault Refusal :=
  answer (fun _ => .ok (reqSetLineResponse dbits par stop brk)) s

/-- The response of REQ_POLL_STATUS (42_control_requests.md R185). -/
def reqPollStatusResponse : Response := (Response.ofStatus .ok).emit pollRequest

/-- REQ_POLL_STATUS (42_control_requests.md R185). -/
def execReqPollStatus (s : State) : Host.Outcome State Fault Refusal :=
  answer (fun _ => .ok reqPollStatusResponse) s

/-- The response of REQ_CONFIGURE: every check before anything is emitted; then line, baud, flow, and
modem unless both selectors are 0 (42_control_requests.md R187). -/
def reqConfigureResponse (portIndex : BitVec 8) (fam : BitVec 2) (dbits : BitVec 4) (par : BitVec 3)
    (stop : BitVec 2) (brk : BitVec 1) (flow : BitVec 3) (dtr rts : BitVec 2) (baud : Word) :
    Response :=
  withArgument (familyOf fam) fun f =>
  withArgument (baudRateOf baud) fun b =>
  withArgument (lineConfigOf dbits par stop brk) fun c =>
  withArgument (flowModeOf flow) fun m =>
  withArgument (lineSelOf dtr) fun d =>
  withArgument (lineSelOf rts) fun r =>
  withTolerance (baudEncode b f portIndex) fun res =>
  let three := (((Response.ofStatus .ok).emit (lineRequest c)).emit (baudRequest res)).emit (flowRequest m)
  (if bothKeep d r then three else three.emit (modemRequest d r)).setResult res

/-- REQ_CONFIGURE (42_control_requests.md R187). -/
def execReqConfigure (fam : BitVec 2) (dbits : BitVec 4) (par : BitVec 3) (stop : BitVec 2)
    (brk : BitVec 1) (flow : BitVec 3) (dtr rts : BitVec 2) (s : State) :
    Host.Outcome State Fault Refusal :=
  answer (fun tx =>
    .ok (reqConfigureResponse s.portIndex fam dbits par stop brk flow dtr rts tx.baud)) s

end Sys2Proof.Machine
end

