-- ==== Sys2Proof/Machine/Dispatch.lean ====
section
/-!
DEFINITION. One arm per command of the opcode map (30_encoding.md R81), each one call of its meaning.
-/

namespace Sys2Proof.Machine

open Sys2Proof

/-- What a decoded command does. -/
def exec (i : Instr) (s : State) : Host.Outcome State Fault Refusal :=
  match i with
  | .reqReset => Sys2Proof.Machine.execReqReset s
  | .reqModemCtrl dtr rts => Sys2Proof.Machine.execReqModemCtrl dtr rts s
  | .reqFlowCtrl flow => Sys2Proof.Machine.execReqFlowCtrl flow s
  | .reqSetBaud fam => Sys2Proof.Machine.execReqSetBaud fam s
  | .reqSetLine dbits par stop brk => Sys2Proof.Machine.execReqSetLine dbits par stop brk s
  | .reqPollStatus => Sys2Proof.Machine.execReqPollStatus s
  | .reqConfigure fam dbits par stop brk flow dtr rts => Sys2Proof.Machine.execReqConfigure fam dbits par stop brk flow dtr rts s
  | .encLine dbits par stop brk => Sys2Proof.Machine.execEncLine dbits par stop brk s
  | .encBaud fam => Sys2Proof.Machine.execEncBaud fam s
  | .stripFrame => Sys2Proof.Machine.execStripFrame s

end Sys2Proof.Machine
end

