-- ==== Sys2Proof/Machine/Step.lean ====
section
/-!
DEFINITION. One step of the machine: one command transaction, whole (20_memory.md R58,
70_reset_and_hazards.md R282).
-/

namespace Sys2Proof.Machine

/-- One step: the transaction presented next is decoded and answered; a word that spells no command is
answered with ILLEGAL_COMMAND (30_encoding.md R72, R83); with nothing presented nothing happens
(60_exceptions.md R238; log entry 4). -/
def step (s : State) : Host.Outcome State Fault Refusal :=
  match s.presentedWord with
  | none => idle s
  | some w =>
      match decode w with
      | .ok i => exec i s
      | .error why => rejectWord why s

/-- The state in which the next step runs the instruction whose `nbits` bits are `w`
(log entry 8). -/
def State.withFetchWord (s : State) (nbits w : Nat) : State := s.withWord (tableWord nbits w)

end Sys2Proof.Machine
end

