-- ==== Sys2Proof/Machine/Assembler.lean ====
section
/-!
DEFINITION. The assembler syntax and the pseudo-instructions (30_encoding.md R85, R86): one line of text
to one command with its operands. Spelling details the rules leave open are log entry 16.
-/

namespace Sys2Proof.Machine

/-- A command as a host presents it: the instruction and the operands BAUD, FRAME and NREAD; an operand
the line does not give is zero or empty (30_encoding.md R85). -/
structure AsmCommand where
  instr : Instr
  baud : Word := 0
  frame : List Byte := []
  nread : Half := 0
deriving DecidableEq, Repr

/-- The tokens of a line. -/
inductive Token where
  | word (cs : List Char)
  | comma
  | equals
  | openBracket
  | closeBracket
deriving DecidableEq, Repr

/-- A token from the characters of a word read so far, if there are any. -/
def flushWord (acc : List Char) (rest : List Token) : List Token :=
  if acc.isEmpty then rest else .word acc.reverse :: rest

/-- The tokens of a line; keywords are case-insensitive (30_encoding.md R85). -/
def tokenize (acc : List Char) : List Char → List Token
  | [] => flushWord acc []
  | c :: cs =>
      if c = ' ' then flushWord acc (tokenize [] cs)
      else if c = ',' then flushWord acc (.comma :: tokenize [] cs)
      else if c = '=' then flushWord acc (.equals :: tokenize [] cs)
      else if c = '[' then flushWord acc (.openBracket :: tokenize [] cs)
      else if c = ']' then flushWord acc (.closeBracket :: tokenize [] cs)
      else tokenize (c.toLower :: acc) cs

/-- The value a keyword has in a table of keywords. -/
def keyword {α : Type} (table : List (String × α)) (cs : List Char) : Option α :=
  (table.find? fun e => e.1.toList == cs).map fun e => e.2

/-- `<fam>` (30_encoding.md R85). -/
def asmFam : List Char → Option (BitVec 2) := keyword [("am", 0), ("bm", 1), ("h", 2)]

/-- `<7|8>` (30_encoding.md R85). -/
def asmDbits : List Char → Option (BitVec 4) := keyword [("7", 7), ("8", 8)]

/-- `<par>` (30_encoding.md R85). -/
def asmPar : List Char → Option (BitVec 3) :=
  keyword [("none", 0), ("odd", 1), ("even", 2), ("mark", 3), ("space", 4)]

/-- `<stop>` (30_encoding.md R85). -/
def asmStop : List Char → Option (BitVec 2) := keyword [("1", 0), ("1.5", 1), ("2", 2)]

/-- `<brk>` (30_encoding.md R85). -/
def asmBrk : List Char → Option (BitVec 1) := keyword [("nobreak", 0), ("break", 1)]

/-- `<flow>` (30_encoding.md R85). -/
def asmFlow : List Char → Option (BitVec 3) :=
  keyword [("none", 0), ("rtscts", 1), ("dtrdsr", 2), ("xonxoff", 4)]

/-- `<line>` (30_encoding.md R85). -/
def asmLine : List Char → Option (BitVec 2) := keyword [("keep", 0), ("low", 2), ("high", 3)]

/-- The value of a digit in a base of at most 16. -/
def digitValue (base : Nat) (c : Char) : Option Nat :=
  let v :=
    if '0' ≤ c ∧ c ≤ '9' then c.toNat - '0'.toNat
    else if 'a' ≤ c ∧ c ≤ 'f' then c.toNat - 'a'.toNat + 10
    else base
  if v < base then some v else none

/-- The number written by digits, most significant first. -/
def digitsValue (base : Nat) (acc : Nat) : List Char → Option Nat
  | [] => some acc
  | c :: cs =>
      match digitValue base c with
      | none => none
      | some d => digitsValue base (acc * base + d) cs

/-- A number of at least one digit. -/
def numberOf (base : Nat) (cs : List Char) : Option Nat :=
  if cs.isEmpty then none else digitsValue base 0 cs

/-- `<baud>`: a decimal integer, possibly negative, that 32 bits hold (30_encoding.md R73, R85). -/
def asmBaud (cs : List Char) : Option Word :=
  match cs with
  | '-' :: ds =>
      match numberOf 10 ds with
      | some n => if n ≤ 0x80000000 then some (BitVec.ofInt 32 (-(n : Int))) else none
      | none => none
  | ds =>
      match numberOf 10 ds with
      | some n => if n < 0x80000000 then some (BitVec.ofNat 32 n) else none
      | none => none

/-- `<nread>`: a decimal integer that 16 bits hold (30_encoding.md R73, R85). -/
def asmNread (cs : List Char) : Option Half :=
  match numberOf 10 cs with
  | some n => if n < 0x10000 then some (BitVec.ofNat 16 n) else none
  | none => none

/-- `<byte>`: hexadecimal with 0x, or decimal (log entry 16). -/
def asmByte (cs : List Char) : Option Byte :=
  let value :=
    match cs with
    | '0' :: 'x' :: ds => numberOf 16 ds
    | ds => numberOf 10 ds
  match value with
  | some n => if n < 0x100 then some (BitVec.ofNat 8 n) else none
  | none => none

/-- The bytes of a list up to its closing bracket, which ends the line. -/
def asmBytes : List Token → Option (List Byte)
  | [.closeBracket] => some []
  | [.word b, .closeBracket] => (asmByte b).map fun v => [v]
  | .word b :: .comma :: rest =>
      match asmByte b, asmBytes rest with
      | some v, some vs => some (v :: vs)
      | _, _ => none
  | _ => none

/-- The word is the given mnemonic or keyword. -/
def isWord (cs : List Char) (s : String) : Bool := cs == s.toList

/-- The command of a mnemonic and its operand tokens (30_encoding.md R85, R86). -/
def assembleTokens (m : List Char) (operands : List Token) : Option AsmCommand :=
  match operands with
  | [] =>
      if isWord m "req.reset" then some { instr := .reqReset }
      else if isWord m "req.poll" then some { instr := .reqPollStatus }
      else if isWord m "flow.off" then some { instr := .reqFlowCtrl 0 }
      else if isWord m "line.8n1" then some { instr := .reqSetLine 8 0 0 0 }
      else none
  | [.word a] =>
      if isWord m "req.flow" then (asmFlow a).map fun f => { instr := .reqFlowCtrl f }
      else if isWord m "set.dtr" then
        if isWord a "keep" then none else (asmLine a).map fun l => { instr := .reqModemCtrl l 0 }
      else if isWord m "set.rts" then
        if isWord a "keep" then none else (asmLine a).map fun l => { instr := .reqModemCtrl 0 l }
      else none
  | [.word f, .comma, .word b] =>
      match asmFam f, asmBaud b with
      | some fam, some baud =>
          if isWord m "req.baud" then some { instr := .reqSetBaud fam, baud := baud }
          else if isWord m "enc.baud" then some { instr := .encBaud fam, baud := baud }
          else none
      | _, _ => none
  | [.word k1, .equals, .word d, .comma, .word k2, .equals, .word r] =>
      if isWord m "req.modem" && isWord k1 "dtr" && isWord k2 "rts" then
        match asmLine d, asmLine r with
        | some dtr, some rts => some { instr := .reqModemCtrl dtr rts }
        | _, _ => none
      else none
  | [.word d, .comma, .word p, .comma, .word s, .comma, .word k] =>
      match asmDbits d, asmPar p, asmStop s, asmBrk k with
      | some dbits, some par, some stop, some brk =>
          if isWord m "req.line" then some { instr := .reqSetLine dbits par stop brk }
          else if isWord m "enc.line" then some { instr := .encLine dbits par stop brk }
          else none
      | _, _, _, _ => none
  | [.word f, .comma, .word b, .comma, .word d, .comma, .word p, .comma, .word s, .comma, .word k,
      .comma, .word fl, .comma, .word k1, .equals, .word dl, .comma, .word k2, .equals, .word rl] =>
      if isWord m "req.config" && isWord k1 "dtr" && isWord k2 "rts" then
        match asmFam f, asmBaud b, asmDbits d, asmPar p, asmStop s, asmBrk k, asmFlow fl, asmLine dl,
          asmLine rl with
        | some fam, some baud, some dbits, some par, some stop, some brk, some flow, some dtr,
            some rts =>
            some { instr := .reqConfigure fam dbits par stop brk flow dtr rts, baud := baud }
        | _, _, _, _, _, _, _, _, _ => none
      else none
  | .word n :: .comma :: .openBracket :: bytes =>
      if isWord m "strip" then
        match asmNread n, asmBytes bytes with
        | some nread, some bs => some { instr := .stripFrame, frame := bs, nread := nread }
        | _, _ => none
      else none
  | _ => none

/-- The command of one line of text, if the line is one (30_encoding.md R85, R86). -/
def assembleLine (line : List Char) : Option AsmCommand :=
  match tokenize [] line with
  | .word m :: operands => assembleTokens m operands
  | _ => none

/-- The transaction an agent presents for an assembled command (60_exceptions.md R246). -/
def AsmCommand.transaction (c : AsmCommand) (agent : Nat) : Transaction where
  agent := agent
  cmd := encode c.instr
  baud := c.baud
  frame := Memory.ofBytes c.frame
  nread := c.nread

end Sys2Proof.Machine
end

