-- ==== Sys2Proof/Machine/HostSide.lean ====
section
/-!
DEFINITION. The host's side of the block's interface: submitting the requests of a response through the
transport, the failure the transport may give, the session state a host may keep, and the end of a run
(60_exceptions.md R245 to R249, 42_control_requests.md R190). None of this is state of the block
(10_state.md R35), and no command depends on it.
-/

namespace Sys2Proof.Machine

/-- The opaque `TransportError`: a failure the environment chose; its content is never examined
(60_exceptions.md R245, item I8 of 93_implementation_defined.md; log entry 13). -/
structure TransportError where
  content : Nat
deriving DecidableEq, Repr

/-- The session states a host may keep for one device (10_state.md R35, 60_exceptions.md R248). -/
inductive Session where
  | unconfigured
  | configured
deriving DecidableEq, Repr

/-- What a host remembers of a command it issued: the word, the STATUS it received, and whether every
request of the response has been submitted without failure (60_exceptions.md R248). -/
structure CommandRecord where
  cmd : Word
  status : Option Byte
  submitted : Bool
deriving DecidableEq, Repr

/-- One host agent (60_exceptions.md R243, R246). All its commands are taken as aimed at one device, whose
session it keeps: a transaction names no device (10_state.md R24) and no rule binds an agent to one;
DESIGN CHOICE, log entry 20. -/
structure HostAgent where
  /-- The commands still to issue, in order (10_state.md R21). -/
  program : List Transaction
  /-- The requests of the last response not yet submitted, in list order. -/
  pending : List ControlRequest
  /-- The requests submitted without failure, in order. -/
  submitted : List ControlRequest
  /-- What the transport will answer to the submissions to come: `none` is success. Where the list ends,
  the transport has not completed the submission (log entry 13). -/
  transport : List (Option TransportError)
  /-- The failure surfaced to the caller, unchanged (60_exceptions.md R247). -/
  failure : Option TransportError
  /-- The commands issued so far, the last one first. -/
  records : List CommandRecord
deriving DecidableEq, Repr

/-- The block and one host agent beside it. -/
structure System where
  block : State
  host : HostAgent
deriving DecidableEq, Repr

/-! ### Submission -/

/-- The last command's record, once every request of its response has been submitted. -/
def markSubmitted : List CommandRecord → List CommandRecord
  | [] => []
  | r :: rest => { r with submitted := true } :: rest

/-- One submission step: the next request of the list, in list order; it blocks while the transport has
not completed it, and at a failure the rest of the list is not submitted and the failure is surfaced
unchanged, never retried (60_exceptions.md R247). -/
def HostAgent.submitOne (h : HostAgent) : HostAgent :=
  match h.pending with
  | [] => h
  | q :: rest =>
      match h.transport with
      | [] => h
      | none :: more =>
          { h with pending := rest, submitted := h.submitted ++ [q], transport := more,
                   records := if rest = [] then markSubmitted h.records else h.records }
      | some e :: more => { h with pending := [], transport := more, failure := some e }

/-- The host receives the response to a command it issued: the requests to submit are its REQS; a response
without requests has nothing left to submit (60_exceptions.md R246). -/
def HostAgent.receive (h : HostAgent) (cmd : Word) (r : Response) : HostAgent :=
  { h with pending := r.reqs,
           records := { cmd := cmd, status := r.status, submitted := r.reqs.isEmpty } :: h.records }

/-- One step of the block with its host (log entries 13 and 15): transactions already presented are
answered first; then the host submits what the last response asked for; then, unless a failure was
surfaced, it presents its next command and receives the response; a run that has ended stays as it is
(60_exceptions.md R247, R249), and so does one whose host stopped at a failure before its last command. -/
def System.step (y : System) : Host.Outcome System Fault Refusal :=
  match y.block.presented with
  | _ :: _ =>
      match Machine.step y.block with
      | .next b => .next { y with block := b }
      | .fault f => .fault f
      | .refused r => .refused r
  | [] =>
      match y.host.pending with
      | _ :: _ => .next { y with host := y.host.submitOne }
      | [] =>
          match y.host.failure, y.host.program with
          | none, tx :: more =>
              match Machine.step (y.block.present tx) with
              | .next b =>
                  .next { block := b,
                          host := { y.host with program := more }.receive tx.cmd b.lastResponse }
              | .fault f => .fault f
              | .refused r => .refused r
          | _, _ => .next y

/-- The program has ended: its last command is answered, because a command leaves `program` only with its
response, and the requests of that response are submitted or abandoned (60_exceptions.md R249). -/
def HostAgent.ended (h : HostAgent) : Bool := h.program.isEmpty && h.pending.isEmpty

/-- The host stopped at a transport failure with commands of its program left; such a program has not ended,
because its last command has no response (60_exceptions.md R249; DESIGN CHOICE, log entry 13). -/
def HostAgent.stoppedEarly (h : HostAgent) : Bool :=
  h.failure.isSome && h.pending.isEmpty && !h.program.isEmpty

/-! ### The session -/

/-- The record is of a command of the given opcode that answered OK and whose every request was submitted
without failure (60_exceptions.md R248). -/
def CommandRecord.succeeded (r : CommandRecord) (op : Opcode) : Bool :=
  (CmdFields.ofWord r.cmd).opc == op.code && r.status == some Status.ok.code && r.submitted

/-- The host may hold the session CONFIGURED: after a successful REQ_CONFIGURE, or after a successful
REQ_SET_LINE, REQ_SET_BAUD and REQ_FLOW_CTRL (60_exceptions.md R248). -/
def HostAgent.mayBeConfigured (h : HostAgent) : Bool :=
  h.records.any (·.succeeded .reqConfigure) ||
    (h.records.any (·.succeeded .reqSetLine) && h.records.any (·.succeeded .reqSetBaud) &&
      h.records.any (·.succeeded .reqFlowCtrl))

/-- The session state of a host that takes the transition as soon as it may
(60_exceptions.md R248; DESIGN CHOICE, log entry 14: a host may also take it later or never), for the one
device at which all its commands are aimed (log entry 20). -/
def HostAgent.session (h : HostAgent) : Session :=
  if h.mayBeConfigured then .configured else .unconfigured

/-- A host agent before its first command: UNCONFIGURED, nothing submitted (60_exceptions.md R248; log entry 20). -/
def HostAgent.start (program : List Transaction) (transport : List (Option TransportError)) :
    HostAgent where
  program := program
  pending := []
  submitted := []
  transport := transport
  failure := none
  records := []

/-- `k` steps of the block with its host. -/
def System.run : Nat → System → Host.Outcome System Fault Refusal
  | 0, y => .next y
  | k + 1, y =>
      match y.step with
      | .next y' => System.run k y'
      | .fault f => .fault f
      | .refused r => .refused r

/-! ### The setup packet (informative) -/

/-- bmRequestType: 0x40 for OUT, 0xC0 for IN (20_memory.md R53, informative). -/
def requestType : Direction → Byte
  | .out => 0x40
  | .in => 0xC0

/-- A 16-bit value as two bytes, least significant first (20_memory.md R53, informative). -/
def halfBytes (v : Half) : List Byte := [v.extractLsb' 0 8, v.extractLsb' 8 8]

/-- The USB setup packet a transport makes of a record (20_memory.md R53). Informative: nothing of the
block depends on it (log entry 17). -/
def setupPacket (q : ControlRequest) : List Byte :=
  [requestType q.dir, q.bRequest] ++ halfBytes q.wValue ++ halfBytes q.wIndex ++ halfBytes q.wLength

end Sys2Proof.Machine
end

