-- ==== Sys2Proof/Safety.lean ====
section
/-!
DEFINITION. The terms in which claims speak: the shapes of a response (10_state.md R31, R34), a legal
instance, the contract every response keeps, the causes of a status (60_exceptions.md R232 to R235), and
the duties of a host (60_exceptions.md R246, 70_reset_and_hazards.md R275 to R280).
-/

namespace Sys2Proof

open Sys2Proof.Machine

/-! ### Outcomes -/

/-- The outcome is a next state: no fault and no refusal. -/
def Answers (o : Host.Outcome State Fault Refusal) : Prop := ∃ s, o = .next s

/-! ### The shapes of a response, each field written out -/

/-- A response that holds a status and nothing else (60_exceptions.md R236). -/
def statusOnly (c : Byte) : Response :=
  { status := some c, lineValue := none, divValue := none, divIndex := none, achieved := none, reqs := [],
    payload := none, payloadLen := none }

/-- An OK response that holds a list of requests (10_state.md R31). -/
def okRequests (qs : List ControlRequest) : Response :=
  { status := some 0x00, lineValue := none, divValue := none, divIndex := none, achieved := none,
    reqs := qs, payload := none, payloadLen := none }

/-- An OK response that holds a line-encoding value (10_state.md R31). -/
def okLineValue (v : Half) : Response :=
  { status := some 0x00, lineValue := some v, divValue := none, divIndex := none, achieved := none,
    reqs := [], payload := none, payloadLen := none }

/-- An OK response that holds a BaudResult and a list of requests (10_state.md R31). -/
def okBaud (b : BaudResult) (qs : List ControlRequest) : Response :=
  { status := some 0x00, lineValue := none, divValue := some b.value, divIndex := some b.index,
    achieved := some (BitVec.ofNat 32 b.ach), reqs := qs, payload := none, payloadLen := none }

/-- A response of STRIP_FRAME that holds a payload (10_state.md R31). -/
def payloadResponse (c : Byte) (bs : List Byte) : Response :=
  { status := some c, lineValue := none, divValue := none, divIndex := none, achieved := none, reqs := [],
    payload := some bs, payloadLen := some (BitVec.ofNat 16 bs.length) }

/-! ### The contract of a response -/

/-- The code is one of the three error statuses (60_exceptions.md R230, R236). -/
def errorCode (c : Byte) : Prop := c = 0x01 ∨ c = 0x02 ∨ c = 0x03

/-- A request has the form of the table of 42_control_requests.md R170: a known code, IN for the poll only,
wLength 2 for the poll and 0 otherwise, and wIndex 0 for every code but set-baud-rate. -/
def requestLegal (q : ControlRequest) : Prop :=
  q.bRequest.toNat ≤ 5 ∧ (q.dir = .in ↔ q.bRequest = 0x05) ∧
    q.wLength = (if q.bRequest = 0x05 then 2 else 0) ∧ (q.bRequest ≠ 0x03 → q.wIndex = 0)

/-- A response keeps the contract: a known status, nothing beside an error status, at most four legal
requests, a line value inside the mask 0x4F0F, an achieved rate the encoder can give, and a payload whose
length is PAYLOAD_LEN and fits the endpoint (10_state.md R31, 40_line_encoding.md R105,
41_baud_encoding.md R155, 43_frame_strip.md R216, 60_exceptions.md R230, R236). -/
def responseLegal (maxPacket : Half) (r : Response) : Prop :=
  (∃ c, r.status = some c ∧ c.toNat ≤ 4 ∧ (errorCode c → r = statusOnly c)) ∧
    r.reqs.length ≤ 4 ∧ (∀ q ∈ r.reqs, requestLegal q) ∧
    (∀ v, r.lineValue = some v → v &&& 0x4F0F = v) ∧
    (∀ a, r.achieved = some a → 183 ≤ a.toNat ∧ a.toNat ≤ 12000000) ∧
    (∀ bs, r.payload = some bs →
      r.payloadLen = some (BitVec.ofNat 16 bs.length) ∧ bs.length + 2 ≤ maxPacket.toNat)

/-- The environment bound a legal MAX_PACKET (70_reset_and_hazards.md R275, 00_scope.md R9). -/
def legalInstance (s : State) : Prop := 2 ≤ s.maxPacket.toNat

/-- What every step keeps: a legal instance, every frame in canonical form, and every response returned so
far within the contract. -/
def machineInvariant (s : State) : Prop :=
  legalInstance s ∧ s.memoryWf = true ∧ ∀ e ∈ s.completed, responseLegal s.maxPacket e.response

/-! ### The causes of a status -/

/-- The FAM field of a command that encodes a baud rate (00_scope.md R11). -/
def baudField : Instr → Option (BitVec 2)
  | .reqReset => none
  | .reqModemCtrl _ _ => none
  | .reqFlowCtrl _ => none
  | .reqSetBaud fam => some fam
  | .reqSetLine _ _ _ _ => none
  | .reqPollStatus => none
  | .reqConfigure fam _ _ _ _ _ _ _ => some fam
  | .encLine _ _ _ _ => none
  | .encBaud fam => some fam
  | .stripFrame => none

/-- Every field and operand the command uses is legal (60_exceptions.md R232). -/
def argumentsLegal (maxPacket : Half) (tx : Transaction) (i : Instr) : Prop :=
  i.wellFormed = true ∧ ((baudField i).isSome → 0 < tx.baud.toInt) ∧
    (i = .stripFrame → tx.frame.flen ≤ maxPacket.toNat ∧ tx.nread.toNat ≤ tx.frame.flen)

/-- The family of a legal FAM field (30_encoding.md R75). -/
def famValue (fam : BitVec 2) : Family := if fam = 0 then .am else if fam = 1 then .bm else .h

/-- The achieved rate deviates from the requested rate by more than 3% (60_exceptions.md R234). -/
def rateOutOfTolerance (tx : Transaction) (fam : BitVec 2) : Prop :=
  let ach : Int := (encodedRate tx.baud.toInt.toNat (famValue fam)).ach
  3 * tx.baud.toInt < 100 * |ach - tx.baud.toInt|

/-- The command consumes its BaudResult, so that it checks the tolerance (41_baud_encoding.md R156). -/
def consumesBaud : Instr → Bool
  | .reqReset => false
  | .reqModemCtrl _ _ => false
  | .reqFlowCtrl _ => false
  | .reqSetBaud _ => true
  | .reqSetLine _ _ _ _ => false
  | .reqPollStatus => false
  | .reqConfigure _ _ _ _ _ _ _ _ => true
  | .encLine _ _ _ _ => false
  | .encBaud _ => false
  | .stripFrame => false

/-- The command has this cause of a status (60_exceptions.md R230 to R235): a word that spells no command,
an illegal argument, a rate out of tolerance, a frame shorter than its header, or none of them. -/
def hasCause (maxPacket : Half) (tx : Transaction) (st : Status) : Prop :=
  match decode tx.cmd with
  | .error _ => st = .illegalCommand
  | .ok i =>
      match st with
      | .illegalCommand => False
      | .invalidArgument => ¬ argumentsLegal maxPacket tx i
      | .unsupportedBaud =>
          argumentsLegal maxPacket tx i ∧ consumesBaud i = true ∧
            ∃ fam, baudField i = some fam ∧ rateOutOfTolerance tx fam
      | .shortFrame => i = .stripFrame ∧ tx.nread.toNat < 2
      | .ok => True

/-! ### Duties of the host -/

/-- The word is of a command that encodes a baud rate (00_scope.md R11). -/
def isBaudCommand (w : Word) : Bool :=
  match decode w with
  | .ok i => (baudField i).isSome
  | .error _ => false

/-- A duty of the host: every baud command for one device carries the same FAM
(60_exceptions.md R246, 70_reset_and_hazards.md R280). A host that breaks it is outside every claim
about the device (item I12 of 93_implementation_defined.md; log entry 18). The program is taken as all the
commands aimed at one device: a transaction names no device (10_state.md R24); DESIGN CHOICE, log entry 20. -/
def familyConsistent (program : List Transaction) : Bool :=
  let fams := (program.filter fun tx => isBaudCommand tx.cmd).map fun tx => (CmdFields.ofWord tx.cmd).fam
  match fams with
  | [] => true
  | f :: rest => rest.all (· == f)

/-- A duty of the host: take exactly PAYLOAD_LEN bytes of PAYLOAD (70_reset_and_hazards.md R277). -/
def takePayload (r : Response) : Except Fault (List Byte) :=
  match r.readPayload, r.readPayloadLen with
  | .ok bs, .ok n => .ok (bs.take n.toNat)
  | .error f, _ => .error f
  | _, .error f => .error f

end Sys2Proof
end

