-- ==== Sys2Proof/Certificates/Slice0/Obligations.lean ====
section
/-!
DEFINITION. The statements for the provers. Each docstring says which rule of spec/ it formalises; a
statement marked "derived" rests on what the spec itself infers, or on a choice of the model. Every
statement about a step speaks in the model's lists of presented and completed transactions (log entries 2
and 3).
-/

open Sys2Proof Sys2Proof.Machine

/-! ### Decoding and encoding -/

/-- Derived from 30_encoding.md sections 1 and 3: the word of every command, with every field at every
value, decodes to that command. -/
def Obligations.DecodeOfEncodeIsTheInstruction : Prop :=
  ∀ i : Instr, decode (encode i) = .ok i

/-- Derived from 30_encoding.md sections 1 and 3: a word that decodes is the word of what it decodes to, so
every command has exactly one word. -/
def Obligations.EncodeOfDecodeIsTheWord : Prop :=
  ∀ (w : Word) (i : Instr), decode w = .ok i → encode i = w

/-- Derived from 30_encoding.md sections 1 and 3: a word decodes exactly when its OPC is one of the ten
opcodes and the word passes that opcode's MASK and MATCH test; every mask is all ones less the fields the
opcode uses, and every MATCH is the opcode. -/
def Obligations.DecodeAcceptsExactlyTheMatchingWords : Prop :=
  (∀ op : Opcode, op.mask = ~~~ (op.uses.foldl (fun m f => m ||| f.mask) 0) ∧
      op.matchWord = op.code.zeroExtend 32) ∧
    ∀ w : Word, (∃ i, decode w = .ok i) ↔
      ∃ op : Opcode, w.extractLsb' 0 8 = op.code ∧ w &&& op.mask = op.matchWord

/-- Derived from 30_encoding.md sections 1 and 3: a word decodes to a command exactly when it passes the
test of that command's opcode and every field of the command is the bits of the word that the field table
gives it; for each of the ten opcodes. -/
def Obligations.DecodedFieldsAreTheTableBits : Prop :=
  ∀ (w : Word) (i : Instr),
    let fam := w.extractLsb' 8 2
    let dbits := w.extractLsb' 10 4
    let par := w.extractLsb' 14 3
    let stop := w.extractLsb' 17 2
    let brk := w.extractLsb' 19 1
    let flow := w.extractLsb' 20 3
    let dtr := w.extractLsb' 23 2
    let rts := w.extractLsb' 25 2
    decode w = .ok i ↔
      (w = 0x00000000#32 ∧ i = .reqReset) ∨
      (w &&& 0xF87FFFFF#32 = 0x01#32 ∧ i = .reqModemCtrl dtr rts) ∨
      (w &&& 0xFF8FFFFF#32 = 0x02#32 ∧ i = .reqFlowCtrl flow) ∨
      (w &&& 0xFFFFFCFF#32 = 0x03#32 ∧ i = .reqSetBaud fam) ∨
      (w &&& 0xFFF003FF#32 = 0x04#32 ∧ i = .reqSetLine dbits par stop brk) ∨
      (w = 0x00000005#32 ∧ i = .reqPollStatus) ∨
      (w &&& 0xF80000FF#32 = 0x06#32 ∧ i = .reqConfigure fam dbits par stop brk flow dtr rts) ∨
      (w &&& 0xFFF003FF#32 = 0x10#32 ∧ i = .encLine dbits par stop brk) ∨
      (w &&& 0xFFFFFCFF#32 = 0x13#32 ∧ i = .encBaud fam) ∨
      (w = 0x00000020#32 ∧ i = .stripFrame)

/-- Derived from 30_encoding.md sections 3 and 4: words written out from the opcode map decode to the
commands they stand for. -/
def Obligations.WrittenOutWordsDecode : Prop :=
  decode 0x00000000#32 = .ok .reqReset ∧
    decode 0x05800001#32 = .ok (.reqModemCtrl 3 2) ∧
    decode 0x00100002#32 = .ok (.reqFlowCtrl 1) ∧
    decode 0x00000103#32 = .ok (.reqSetBaud 1) ∧
    decode 0x000CA004#32 = .ok (.reqSetLine 8 2 2 1) ∧
    decode 0x00000005#32 = .ok .reqPollStatus ∧
    decode 0x044C5C06#32 = .ok (.reqConfigure 0 7 1 2 1 4 0 2) ∧
    decode 0x00002010#32 = .ok (.encLine 8 0 0 0) ∧
    decode 0x00000213#32 = .ok (.encBaud 2) ∧
    decode 0x00000020#32 = .ok .stripFrame

/-- Derived from 30_encoding.md section 4: the six pseudo-instructions assemble to the words the table
gives. -/
def Obligations.PseudoInstructionsAssembleToTheirWords : Prop :=
  ∀ entry ∈ [("set.dtr high", 0x01800001#32), ("set.dtr low", 0x01000001#32),
      ("set.rts high", 0x06000001#32), ("set.rts low", 0x04000001#32), ("flow.off", 0x00000002#32),
      ("line.8n1", 0x00002004#32)],
    (assembleLine entry.1.toList).map (fun c => encode c.instr) = some entry.2

/-! ### The step -/

/-- Derived from 30_encoding.md section 1 and 20_memory.md section 3: the next presented transaction is run
as the command its word decodes to, with nothing added around it. -/
def Obligations.StepRunsTheDecodedCommand : Prop :=
  ∀ (s : State) (tx : Transaction) (rest : List Transaction) (i : Instr),
    s.presented = tx :: rest → decode tx.cmd = .ok i → step s = exec i s

/-- R231: a word whose OPC is not one of the ten opcodes, or that fails its opcode's MASK and MATCH test, is
answered with ILLEGAL_COMMAND, and the response records nothing besides the code (the spec's decision D3). -/
def Obligations.IllegalWordsAnswerIllegalCommand : Prop :=
  ∀ (s : State) (tx : Transaction) (rest : List Transaction),
    s.presented = tx :: rest →
    ((∀ op : Opcode, tx.cmd.extractLsb' 0 8 ≠ op.code) ∨
      ∃ op : Opcode, tx.cmd.extractLsb' 0 8 = op.code ∧ tx.cmd &&& op.mask ≠ op.matchWord) →
    step s = .next (s.answered tx rest (statusOnly 0x03))

/-- Derived from 60_exceptions.md section 4, and the model's choice of log entry 4: with no transaction
presented the block does nothing. -/
def Obligations.StepWithoutTransactionIsIdle : Prop :=
  ∀ s : State, s.presented = [] → step s = .next s

/-- Derived from 70_reset_and_hazards.md section 4: every step answers a next state, from every state; no
command faults, is refused or fails to end. That a step with no transaction presented answers a next state
too is the model's choice of log entry 4. -/
def Obligations.EveryStepAnswers : Prop := ∀ s : State, Answers (step s)

/-- Derived from 10_state.md section 2 and 20_memory.md section 1, over the model's lists of log entries 2
and 3: a step leaves the parameters alone, answers at most the transaction presented next, leaves every
transaction presented after it and every earlier response as they were, and changes no byte of a frame. -/
def Obligations.StepChangesOnlyTheAnsweredTransaction : Prop :=
  ∀ s t : State, step s = .next t →
    t.portIndex = s.portIndex ∧ t.maxPacket = s.maxPacket ∧ t.presented = s.presented.tail ∧
      t.completed.take s.completed.length = s.completed ∧
      t.completed.length = s.completed.length + (if s.presented = [] then 0 else 1) ∧
      ∀ tx rest, s.presented = tx :: rest →
        ∃ r, t.completed = s.completed ++ [⟨tx, r⟩] ∧
          ∀ (e : Exchange) (addr : Nat), t.completed.getLast? = some e →
            e.tx.frame.flen = tx.frame.flen ∧ e.tx.frame.byteAt addr = tx.frame.byteAt addr

/-! ### The commands, word for word -/

/-- R172: REQ_RESET, for every word with its opcode. -/
def Obligations.ReqResetFollowsItsRule : Prop :=
  ∀ (s : State) (tx : Transaction) (rest : List Transaction),
    s.presented = tx :: rest → tx.cmd.extractLsb' 0 8 = 0x00#8 →
    step s = .next (s.answered tx rest (
      if tx.cmd ≠ 0x00000000#32 then statusOnly 0x03
      else okRequests [⟨.out, 0x00, 0x0000, 0x0000, 0⟩]))

/-- R177: REQ_MODEM_CTRL, for every word with its opcode; `pat` gives 0x0000, 0x0100 or 0x0101 for DTR and
the doubles of these for RTS. -/
def Obligations.ReqModemCtrlFollowsItsRule : Prop :=
  ∀ (s : State) (tx : Transaction) (rest : List Transaction),
    s.presented = tx :: rest → tx.cmd.extractLsb' 0 8 = 0x01#8 →
    let dtr := (tx.cmd.extractLsb' 23 2).toNat
    let rts := (tx.cmd.extractLsb' 25 2).toNat
    let pat : Nat → Nat := fun sel => if sel = 0 then 0x0000 else if sel = 2 then 0x0100 else 0x0101
    step s = .next (s.answered tx rest (
      if tx.cmd &&& 0xF87FFFFF#32 ≠ 0x00000001#32 then statusOnly 0x03
      else if dtr = 1 then statusOnly 0x01
      else if rts = 1 then statusOnly 0x01
      else if dtr = 0 ∧ rts = 0 then statusOnly 0x01
      else okRequests [⟨.out, 0x01, BitVec.ofNat 16 (pat dtr + 2 * pat rts), 0x0000, 0⟩]))

/-- R179: REQ_FLOW_CTRL, for every word with its opcode. -/
def Obligations.ReqFlowCtrlFollowsItsRule : Prop :=
  ∀ (s : State) (tx : Transaction) (rest : List Transaction),
    s.presented = tx :: rest → tx.cmd.extractLsb' 0 8 = 0x02#8 →
    let flow := (tx.cmd.extractLsb' 20 3).toNat
    step s = .next (s.answered tx rest (
      if tx.cmd &&& 0xFF8FFFFF#32 ≠ 0x00000002#32 then statusOnly 0x03
      else if ¬ (flow = 0 ∨ flow = 1 ∨ flow = 2 ∨ flow = 4) then statusOnly 0x01
      else okRequests [⟨.out, 0x02, BitVec.ofNat 16 (flow * 256), 0x0000, 0⟩]))

/-- R181: REQ_SET_BAUD, for every word with its opcode and every BAUD; BAUD_ENCODE is what the statements on
the AM path, the general path and the split say of it (the tolerance check is the spec's decision D8). -/
def Obligations.ReqSetBaudFollowsItsRule : Prop :=
  ∀ (s : State) (tx : Transaction) (rest : List Transaction),
    s.presented = tx :: rest → tx.cmd.extractLsb' 0 8 = 0x03#8 →
    let fam := tx.cmd.extractLsb' 8 2
    let b := baudEncode tx.baud.toInt.toNat (famValue fam) s.portIndex
    step s = .next (s.answered tx rest (
      if tx.cmd &&& 0xFFFFFCFF#32 ≠ 0x00000003#32 then statusOnly 0x03
      else if fam = 3 then statusOnly 0x01
      else if tx.baud.toInt ≤ 0 then statusOnly 0x01
      else if 3 * tx.baud.toInt < 100 * |(b.ach : Int) - tx.baud.toInt| then statusOnly 0x02
      else okBaud b [⟨.out, 0x03, b.value, b.index, 0⟩]))

/-- R183: REQ_SET_LINE, for every word with its opcode; the value is the sum of the four fields at their
offsets. -/
def Obligations.ReqSetLineFollowsItsRule : Prop :=
  ∀ (s : State) (tx : Transaction) (rest : List Transaction),
    s.presented = tx :: rest → tx.cmd.extractLsb' 0 8 = 0x04#8 →
    let dbits := (tx.cmd.extractLsb' 10 4).toNat
    let par := (tx.cmd.extractLsb' 14 3).toNat
    let stop := (tx.cmd.extractLsb' 17 2).toNat
    let brk := (tx.cmd.extractLsb' 19 1).toNat
    step s = .next (s.answered tx rest (
      if tx.cmd &&& 0xFFF003FF#32 ≠ 0x00000004#32 then statusOnly 0x03
      else if ¬ (dbits = 7 ∨ dbits = 8) then statusOnly 0x01
      else if 4 < par then statusOnly 0x01
      else if 2 < stop then statusOnly 0x01
      else okRequests [⟨.out, 0x04,
        BitVec.ofNat 16 (dbits + par * 0x100 + (if stop = 0 then 0 else 0x0800) + brk * 0x4000),
        0x0000, 0⟩]))

/-- R185: REQ_POLL_STATUS, for every word with its opcode (wLength 2 is the spec's decision D20). -/
def Obligations.ReqPollStatusFollowsItsRule : Prop :=
  ∀ (s : State) (tx : Transaction) (rest : List Transaction),
    s.presented = tx :: rest → tx.cmd.extractLsb' 0 8 = 0x05#8 →
    step s = .next (s.answered tx rest (
      if tx.cmd ≠ 0x00000005#32 then statusOnly 0x03
      else okRequests [⟨.in, 0x05, 0x0000, 0x0000, 2⟩]))

/-- R187: REQ_CONFIGURE, for every word with its opcode and every BAUD: every check first, then line, baud,
flow, and modem unless both selectors are 0 (the order of the requests is the spec's decision D22). -/
def Obligations.ReqConfigureFollowsItsRule : Prop :=
  ∀ (s : State) (tx : Transaction) (rest : List Transaction),
    s.presented = tx :: rest → tx.cmd.extractLsb' 0 8 = 0x06#8 →
    let fam := tx.cmd.extractLsb' 8 2
    let dbits := (tx.cmd.extractLsb' 10 4).toNat
    let par := (tx.cmd.extractLsb' 14 3).toNat
    let stop := (tx.cmd.extractLsb' 17 2).toNat
    let brk := (tx.cmd.extractLsb' 19 1).toNat
    let flow := (tx.cmd.extractLsb' 20 3).toNat
    let dtr := (tx.cmd.extractLsb' 23 2).toNat
    let rts := (tx.cmd.extractLsb' 25 2).toNat
    let pat : Nat → Nat := fun sel => if sel = 0 then 0x0000 else if sel = 2 then 0x0100 else 0x0101
    let b := baudEncode tx.baud.toInt.toNat (famValue fam) s.portIndex
    step s = .next (s.answered tx rest (
      if tx.cmd &&& 0xF80000FF#32 ≠ 0x00000006#32 then statusOnly 0x03
      else if fam = 3 then statusOnly 0x01
      else if tx.baud.toInt ≤ 0 then statusOnly 0x01
      else if ¬ (dbits = 7 ∨ dbits = 8) then statusOnly 0x01
      else if 4 < par then statusOnly 0x01
      else if 2 < stop then statusOnly 0x01
      else if ¬ (flow = 0 ∨ flow = 1 ∨ flow = 2 ∨ flow = 4) then statusOnly 0x01
      else if dtr = 1 then statusOnly 0x01
      else if rts = 1 then statusOnly 0x01
      else if 3 * tx.baud.toInt < 100 * |(b.ach : Int) - tx.baud.toInt| then statusOnly 0x02
      else okBaud b (
        [⟨.out, 0x04,
            BitVec.ofNat 16 (dbits + par * 0x100 + (if stop = 0 then 0 else 0x0800) + brk * 0x4000),
            0x0000, 0⟩,
          ⟨.out, 0x03, b.value, b.index, 0⟩,
          ⟨.out, 0x02, BitVec.ofNat 16 (flow * 256), 0x0000, 0⟩]
        ++ if dtr = 0 ∧ rts = 0 then []
           else [⟨.out, 0x01, BitVec.ofNat 16 (pat dtr + 2 * pat rts), 0x0000, 0⟩])))

/-- R106: ENC_LINE, for every word with its opcode; the value is the sum of the four fields at their
offsets. -/
def Obligations.EncLineFollowsItsRule : Prop :=
  ∀ (s : State) (tx : Transaction) (rest : List Transaction),
    s.presented = tx :: rest → tx.cmd.extractLsb' 0 8 = 0x10#8 →
    let dbits := (tx.cmd.extractLsb' 10 4).toNat
    let par := (tx.cmd.extractLsb' 14 3).toNat
    let stop := (tx.cmd.extractLsb' 17 2).toNat
    let brk := (tx.cmd.extractLsb' 19 1).toNat
    step s = .next (s.answered tx rest (
      if tx.cmd &&& 0xFFF003FF#32 ≠ 0x00000010#32 then statusOnly 0x03
      else if ¬ (dbits = 7 ∨ dbits = 8) then statusOnly 0x01
      else if 4 < par then statusOnly 0x01
      else if 2 < stop then statusOnly 0x01
      else okLineValue
        (BitVec.ofNat 16 (dbits + par * 0x100 + (if stop = 0 then 0 else 0x0800) + brk * 0x4000))))

/-- R158: ENC_BAUD, for every word with its opcode and every BAUD; no tolerance check and no request;
BAUD_ENCODE is what the statements on the AM path, the general path and the split say of it. -/
def Obligations.EncBaudFollowsItsRule : Prop :=
  ∀ (s : State) (tx : Transaction) (rest : List Transaction),
    s.presented = tx :: rest → tx.cmd.extractLsb' 0 8 = 0x13#8 →
    let fam := tx.cmd.extractLsb' 8 2
    step s = .next (s.answered tx rest (
      if tx.cmd &&& 0xFFFFFCFF#32 ≠ 0x00000013#32 then statusOnly 0x03
      else if fam = 3 then statusOnly 0x01
      else if tx.baud.toInt ≤ 0 then statusOnly 0x01
      else okBaud (baudEncode tx.baud.toInt.toNat (famValue fam) s.portIndex) []))

/-- R215 and R214: STRIP_FRAME, for every word with its opcode, every frame and every NREAD; the payload is
the bytes at addresses 2 to NREAD - 1 in increasing order. -/
def Obligations.StripFrameFollowsItsRule : Prop :=
  ∀ (s : State) (tx : Transaction) (rest : List Transaction),
    s.presented = tx :: rest → tx.cmd.extractLsb' 0 8 = 0x20#8 →
    let n := tx.nread.toNat
    step s = .next (s.answered tx rest (
      if tx.cmd ≠ 0x00000020#32 then statusOnly 0x03
      else if s.maxPacket.toNat < tx.frame.flen then statusOnly 0x01
      else if tx.frame.flen < n then statusOnly 0x01
      else if n < 2 then payloadResponse 0x04 []
      else payloadResponse 0x00 ((List.range (n - 2)).map fun j => tx.frame.byteAt (2 + j))))

/-! ### Where each instruction completes, and its result -/

/-- Derived from 42_control_requests.md sections 2 and 7: REQ_RESET and REQ_POLL_STATUS complete in every
state with a transaction, whatever its operands; neither resets the block. -/
def Obligations.ResetAndPollComplete : Prop :=
  ∀ (s : State) (tx : Transaction) (rest : List Transaction), s.presented = tx :: rest →
    exec .reqReset s = .next (s.answered tx rest (okRequests [⟨.out, 0x00, 0x0000, 0x0000, 0⟩])) ∧
      exec .reqPollStatus s = .next (s.answered tx rest (okRequests [⟨.in, 0x05, 0x0000, 0x0000, 2⟩]))

/-- Derived from 42_control_requests.md sections 3 and 4: with legal selectors that select a line,
REQ_MODEM_CTRL completes with one request whose high byte is the masks of the selected lines and whose low
byte is the masks of the lines driven high; with a legal mode, REQ_FLOW_CTRL completes. -/
def Obligations.ModemAndFlowControlComplete : Prop :=
  ∀ (s : State) (tx : Transaction) (rest : List Transaction), s.presented = tx :: rest →
    (∀ dtr rts : BitVec 2, selLegal dtr = true → selLegal rts = true → someLineSelected dtr rts = true →
      exec (.reqModemCtrl dtr rts) s = .next (s.answered tx rest (okRequests
        [⟨.out, 0x01,
          BitVec.ofNat 16 ((if dtr = 0 then 0 else 0x0100) + (if rts = 0 then 0 else 0x0200)
            + (if dtr = 3 then 0x0001 else 0) + (if rts = 3 then 0x0002 else 0)), 0x0000, 0⟩]))) ∧
    (∀ flow : BitVec 3, flowLegal flow = true →
      exec (.reqFlowCtrl flow) s = .next (s.answered tx rest (okRequests
        [⟨.out, 0x02, BitVec.ofNat 16 (flow.toNat * 256), 0x0000, 0⟩])))

/-- Derived from 40_line_encoding.md section 2 and 42_control_requests.md section 6: with legal line fields,
ENC_LINE completes with the packed value and REQ_SET_LINE with one request that carries it. -/
def Obligations.LineCommandsComplete : Prop :=
  ∀ (s : State) (tx : Transaction) (rest : List Transaction) (dbits : BitVec 4) (par : BitVec 3)
    (stop : BitVec 2) (brk : BitVec 1), s.presented = tx :: rest → lineLegal dbits par stop = true →
    let v : Half := BitVec.ofNat 16
      (dbits.toNat + par.toNat * 0x100 + (if stop = 0 then 0 else 0x0800) + brk.toNat * 0x4000)
    exec (.encLine dbits par stop brk) s = .next (s.answered tx rest (okLineValue v)) ∧
      exec (.reqSetLine dbits par stop brk) s =
        .next (s.answered tx rest (okRequests [⟨.out, 0x04, v, 0x0000, 0⟩]))

/-- R120: the baud encoder fails only on invalid arguments: with a legal family and a positive rate ENC_BAUD
completes with the BaudResult, however large the rate, and with FAM 3 or a rate that is not positive it
answers INVALID_ARGUMENT. -/
def Obligations.EncBaudFailsOnlyOnInvalidArguments : Prop :=
  ∀ (s : State) (tx : Transaction) (rest : List Transaction) (fam : BitVec 2), s.presented = tx :: rest →
    (famLegal fam = true → 0 < tx.baud.toInt →
      exec (.encBaud fam) s = .next (s.answered tx rest
        (okBaud (baudEncode tx.baud.toInt.toNat (famValue fam) s.portIndex) []))) ∧
    (fam = 3 ∨ tx.baud.toInt ≤ 0 →
      exec (.encBaud fam) s = .next (s.answered tx rest (statusOnly 0x01)))

/-- Derived from 42_control_requests.md sections 5 and 8: with legal arguments and an achieved rate within
3%, REQ_SET_BAUD and REQ_CONFIGURE complete with their requests and the BaudResult; outside 3% both answer
UNSUPPORTED_BAUD. -/
def Obligations.BaudRequestsCompleteWithinTolerance : Prop :=
  ∀ (s : State) (tx : Transaction) (rest : List Transaction) (fam : BitVec 2), s.presented = tx :: rest →
    famLegal fam = true → 0 < tx.baud.toInt →
    let b := baudEncode tx.baud.toInt.toNat (famValue fam) s.portIndex
    (¬ rateOutOfTolerance tx fam →
      exec (.reqSetBaud fam) s =
        .next (s.answered tx rest (okBaud b [⟨.out, 0x03, b.value, b.index, 0⟩])) ∧
      ∀ (dbits : BitVec 4) (par : BitVec 3) (stop : BitVec 2) (brk : BitVec 1) (flow : BitVec 3)
        (dtr rts : BitVec 2), (Instr.reqConfigure fam dbits par stop brk flow dtr rts).wellFormed = true →
        ∃ c m d r, lineConfigOf dbits par stop brk = some c ∧ flowModeOf flow = some m ∧
          lineSelOf dtr = some d ∧ lineSelOf rts = some r ∧
          exec (.reqConfigure fam dbits par stop brk flow dtr rts) s = .next (s.answered tx rest (okBaud b
            ([lineRequest c, ⟨.out, 0x03, b.value, b.index, 0⟩, flowRequest m]
              ++ if dtr = 0 ∧ rts = 0 then [] else [modemRequest d r])))) ∧
    (rateOutOfTolerance tx fam →
      exec (.reqSetBaud fam) s = .next (s.answered tx rest (statusOnly 0x02)) ∧
      ∀ (dbits : BitVec 4) (par : BitVec 3) (stop : BitVec 2) (brk : BitVec 1) (flow : BitVec 3)
        (dtr rts : BitVec 2), (Instr.reqConfigure fam dbits par stop brk flow dtr rts).wellFormed = true →
        exec (.reqConfigure fam dbits par stop brk flow dtr rts) s =
          .next (s.answered tx rest (statusOnly 0x02)))

/-- R213 and R214: on every accepted frame STRIP_FRAME completes: with a count below 2 an empty payload and
SHORT_FRAME, otherwise the bytes of the frame from 2 up to the count. -/
def Obligations.StripFrameCompletesOnAcceptedFrames : Prop :=
  ∀ (s : State) (tx : Transaction) (rest : List Transaction), s.presented = tx :: rest →
    tx.frame.flen ≤ s.maxPacket.toNat → tx.nread.toNat ≤ tx.frame.flen →
    exec .stripFrame s = .next (s.answered tx rest (
      if tx.nread.toNat < 2 then payloadResponse 0x04 []
      else payloadResponse 0x00 ((tx.frame.bytes.take tx.nread.toNat).drop 2)))

/-- Derived from 42_control_requests.md section 8: when REQ_CONFIGURE succeeds, its requests are those of
REQ_SET_LINE, REQ_SET_BAUD, REQ_FLOW_CTRL and, unless both selectors are 0, REQ_MODEM_CTRL with the same
fields, one after the other. -/
def Obligations.ConfigureIsTheConcatenationOfFourCommands : Prop :=
  ∀ (s t : State) (fam : BitVec 2) (dbits : BitVec 4) (par : BitVec 3) (stop : BitVec 2) (brk : BitVec 1)
    (flow : BitVec 3) (dtr rts : BitVec 2),
    exec (.reqConfigure fam dbits par stop brk flow dtr rts) s = .next t →
    t.lastResponse.status = some 0x00 →
    ∃ tLine tBaud tFlow,
      exec (.reqSetLine dbits par stop brk) s = .next tLine ∧ exec (.reqSetBaud fam) s = .next tBaud ∧
      exec (.reqFlowCtrl flow) s = .next tFlow ∧
      (dtr = 0 ∧ rts = 0 → t.lastResponse.reqs =
        tLine.lastResponse.reqs ++ tBaud.lastResponse.reqs ++ tFlow.lastResponse.reqs) ∧
      (¬ (dtr = 0 ∧ rts = 0) → ∃ tModem, exec (.reqModemCtrl dtr rts) s = .next tModem ∧
        t.lastResponse.reqs = tLine.lastResponse.reqs ++ tBaud.lastResponse.reqs
          ++ tFlow.lastResponse.reqs ++ tModem.lastResponse.reqs)

/-! ### The line-encoding packer -/

/-- R101 to R104: the packed value holds the data-bit count in bits 7:0, the parity code in bits 10:8, 0 for
one stop bit and 1 for more in bits 13:11, and the break flag in bit 14. -/
def Obligations.LineEncodeFieldsHoldTheirCodes : Prop :=
  ∀ c : LineConfig,
    ((lineEncode c).extractLsb' 0 8).toNat = (match c.dataBits with | .seven => 7 | .eight => 8) ∧
    ((lineEncode c).extractLsb' 8 3).toNat =
      (match c.parity with | .none => 0 | .odd => 1 | .even => 2 | .mark => 3 | .space => 4) ∧
    ((lineEncode c).extractLsb' 11 3).toNat =
      (match c.stopBits with | .one => 0 | .oneAndHalf => 1 | .two => 1) ∧
    ((lineEncode c).extractLsb' 14 1).toNat = (if c.brk then 1 else 0)

/-- Derived from 40_line_encoding.md section 1: no bit outside the mask 0x4F0F is set, the value lies in
0x0007..0x4C08, and two configurations pack alike exactly when they differ at most in 1.5 against 2 stop
bits. -/
def Obligations.LineEncodeIsInjectiveUpToStopBits : Prop :=
  ∀ c c' : LineConfig,
    (lineEncode c &&& ~~~0x4F0F#16 = 0 ∧ 0x0007 ≤ (lineEncode c).toNat ∧
      (lineEncode c).toNat ≤ 0x4C08) ∧
    (lineEncode c = lineEncode c' ↔
      c.dataBits = c'.dataBits ∧ c.parity = c'.parity ∧ c.brk = c'.brk ∧
        (c.stopBits = .one ↔ c'.stopBits = .one))

/-! ### The baud-divisor calculator -/

/-- R131: with the divisor 24000000 / baud rounded down to a supported fraction, the AM path tries it and
its successor, each adjusted; the achieved rate is that of a candidate whose error is not larger than the
other's, and of the first candidate on a tie; 0x0001 and 0x4001 are remapped after packing. The adjust
tables, the clamp 0x1FFF8 and the rounding of the estimate are numbers the spec marks as general knowledge
(its decisions D12 to D15; log entry 10). -/
def Obligations.AmPathTakesTheNearestCandidate : Prop :=
  ∀ baud : Nat, 0 < baud →
    let d0 := 24000000 / baud
    let d := d0 - [0, 0, 0, 1, 0, 1, 2, 3].getD (d0 % 8) 0
    let adjust : Nat → Nat := fun t =>
      if t ≤ 8 then 8 else if t < 16 then 16
      else if 0x1FFF8 < t + [0, 0, 0, 1, 0, 3, 2, 1].getD (t % 8) 0 then 0x1FFF8
      else t + [0, 0, 0, 1, 0, 3, 2, 1].getD (t % 8) 0
    let est : Nat → Nat := fun t => (24000000 + t / 2) / t
    let diff : Nat → Int := fun t => |(est t : Int) - baud|
    let t0 := adjust d
    let t1 := adjust (d + 1)
    let best := if diff t1 < diff t0 then t1 else t0
    let packed := best / 8 + [0, 3, 2, 4, 1, 5, 6, 7].getD (best % 8) 0 * 0x4000
    diff best ≤ diff t0 ∧ diff best ≤ diff t1 ∧
      encodedRate baud .am =
        { enc := if packed = 0x0001 then 0x0000 else if packed = 0x4001 then 0x0001 else packed,
          ach := est best }

/-- Derived from 41_baud_encoding.md section 2: for every positive rate the surviving AM divisor is 8, 16 or
a value in 17..0x1FFF8 whose fraction is 0, 1, 2 or 4 eighths; the second remapping never fires; the encoded
divisor fits 16 bits and the achieved rate lies in 183..3000000. -/
def Obligations.AmDivisorsAreSupported : Prop :=
  ∀ baud : Nat, 0 < baud →
    let t := (amSurvivor baud).t
    (t = 8 ∨ t = 16 ∨ (17 ≤ t ∧ t ≤ 0x1FFF8 ∧ (t % 8 = 0 ∨ t % 8 = 1 ∨ t % 8 = 2 ∨ t % 8 = 4))) ∧
      packDivisor t ≠ 0x4001 ∧ (encodedRate baud .am).enc ≤ 0xFFFF ∧
      183 ≤ (encodedRate baud .am).ach ∧ (encodedRate baud .am).ach ≤ 3000000

/-- R140 to R145: the general path, on 48 MHz for BM and for H below 733 Bd, and on 120 MHz with bit 17 set
for H from 733 Bd on: three fast paths, then the fractional search in eighths with halves rounded up and the
clamp 0x1FFFF (the fast paths' ≥ tests are the spec's decision D11, the threshold D9). -/
def Obligations.GeneralPathFollowsItsRules : Prop :=
  ∀ baud : Nat, 0 < baud →
    let search : Nat → EncodedRate := fun sixteenths =>
      let d8 := min ((sixteenths / baud + 1) / 2) 0x1FFFF
      { enc := d8 / 8 + [0, 3, 2, 4, 1, 5, 6, 7].getD (d8 % 8) 0 * 0x4000,
        ach := (sixteenths / d8 + 1) / 2 }
    let low : EncodedRate :=
      if 3000000 ≤ baud then { enc := 0, ach := 3000000 }
      else if 2000000 ≤ baud then { enc := 1, ach := 2000000 }
      else if 1500000 ≤ baud then { enc := 2, ach := 1500000 }
      else search 48000000
    let high : EncodedRate :=
      if 12000000 ≤ baud then { enc := 0, ach := 12000000 }
      else if 8000000 ≤ baud then { enc := 1, ach := 8000000 }
      else if 6000000 ≤ baud then { enc := 2, ach := 6000000 }
      else search 192000000
    encodedRate baud .bm = low ∧
      encodedRate baud .h =
        if 7324 < baud * 10 then { enc := high.enc + 0x20000, ach := high.ach } else low

/-- R150 to R152: the value is the low 16 bits of the encoded divisor; the index is its high bits for BM, 0
for AM, and for H its high bits in the high byte over PORT_INDEX in the low byte (the placement for H is the
spec's decision D16). -/
def Obligations.DivisorSplitsIntoValueAndIndex : Prop :=
  ∀ (baud : Nat) (port : BitVec 8), 0 < baud →
    (∀ fam : Family, (baudEncode baud fam port).value.toNat = (encodedRate baud fam).enc % 0x10000) ∧
      (baudEncode baud .am port).index = 0 ∧
      (baudEncode baud .bm port).index.toNat = (encodedRate baud .bm).enc / 0x10000 ∧
      (baudEncode baud .bm port).index.toNat ≤ 1 ∧
      (baudEncode baud .h port).index.toNat =
        (encodedRate baud .h).enc / 0x10000 * 0x100 + port.toNat

/-- Derived from 41_baud_encoding.md sections 1 and 4: the low byte of the H index is PORT_INDEX, its bit 9
is set exactly from 733 Bd on, and its bits 15:10 are 0. -/
def Obligations.HIndexShowsTheClockSwitch : Prop :=
  ∀ (baud : Nat) (port : BitVec 8), 0 < baud →
    let index := (baudEncode baud .h port).index
    index.extractLsb' 0 8 = port ∧ (index.getLsbD 9 = true ↔ 733 ≤ baud) ∧ index.extractLsb' 10 6 = 0

/-- Derived from 41_baud_encoding.md sections 1, 2, 3 and 5 and 00_scope.md section 4: the encoded divisor
fits 17 bits, or 18 for H; the achieved rate is at least 183 and at most 3000000, or 12000000 for H; so the
32-bit ACHIEVED field holds it whole, and the BaudResult echoes the requested rate. -/
def Obligations.EncodedRatesFitTheirFields : Prop :=
  ∀ (baud : Nat) (fam : Family) (port : BitVec 8), 0 < baud →
    (encodedRate baud fam).enc < (if fam = .h then 2 ^ 18 else 2 ^ 17) ∧
      183 ≤ (encodedRate baud fam).ach ∧
      (encodedRate baud fam).ach ≤ (if fam = .h then 12000000 else 3000000) ∧
      (BitVec.ofNat 32 (baudEncode baud fam port).ach).toNat = (encodedRate baud fam).ach ∧
      (baudEncode baud fam port).req = baud

/-- R156: the tolerance predicate holds exactly when the achieved rate is at least 97% and at most 103% of
the requested rate; ENC_BAUD never reports UNSUPPORTED_BAUD, and REQ_SET_BAUD reports it exactly when
ENC_BAUD with the same operands answers OK and the predicate fails; REQ_CONFIGURE reports it only where
REQ_SET_BAUD does, and wherever REQ_SET_BAUD does if its fields are legal (the placement is the spec's
decision D8). -/
def Obligations.ToleranceIsCheckedWhereTheRateIsConsumed : Prop :=
  (∀ req ach : Nat, tolOk req ach = true ↔ 97 * req ≤ 100 * ach ∧ 100 * ach ≤ 103 * req) ∧
    ∀ (s te ts : State) (fam : BitVec 2),
      exec (.encBaud fam) s = .next te → exec (.reqSetBaud fam) s = .next ts →
      te.lastResponse.status ≠ some 0x02 ∧
      (ts.lastResponse.status = some 0x02 ↔
        te.lastResponse.status = some 0x00 ∧
          ∃ tx ∈ s.presented.head?, ∃ ach, te.lastResponse.achieved = some ach ∧
            tolOk tx.baud.toInt.toNat ach.toNat = false) ∧
      ∀ (tc : State) (dbits : BitVec 4) (par : BitVec 3) (stop : BitVec 2) (brk : BitVec 1)
        (flow : BitVec 3) (dtr rts : BitVec 2),
        exec (.reqConfigure fam dbits par stop brk flow dtr rts) s = .next tc →
        (tc.lastResponse.status = some 0x02 → ts.lastResponse.status = some 0x02) ∧
          ((Instr.reqConfigure fam dbits par stop brk flow dtr rts).wellFormed = true →
            ts.lastResponse.status = some 0x02 → tc.lastResponse.status = some 0x02)

/-- Derived from 41_baud_encoding.md section 5 and 95_test_vectors.md section 1: the standard rates are
within tolerance for every family, and 115200 Bd on AM gives the divisor 26 and 115385 Bd. -/
def Obligations.StandardRatesAreWithinTolerance : Prop :=
  (∀ baud ∈ [300, 9600, 38400, 115200, 230400, 921600, 3000000], ∀ fam ∈ [Family.am, .bm, .h],
      tolOk baud (encodedRate baud fam).ach = true) ∧
    encodedRate 115200 .am = { enc := 26, ach := 115385 } ∧
    encodedRate 3000000 .am = { enc := 0, ach := 3000000 } ∧
    encodedRate 3000000 .bm = { enc := 0, ach := 3000000 } ∧
    encodedRate 3000000 .h = { enc := 0x20004, ach := 3000000 }

/-! ### Requests, statuses and errors -/

/-- Derived from 42_control_requests.md sections 1 and 8 and 10_state.md section 5: every request of every
response a command gives has a code of the table, the direction and wLength that the table gives its code,
and wIndex 0 unless its code is set-baud-rate; and there are at most four. The wValue of each request is in
the statements on the single commands. -/
def Obligations.EveryRequestHasItsTableForm : Prop :=
  ∀ (i : Instr) (s t : State), exec i s = .next t →
    t.lastResponse.reqs.length ≤ 4 ∧ ∀ q ∈ t.lastResponse.reqs, requestLegal q

/-- Derived from 42_control_requests.md section 3: the selectors 0, 2 and 3 leave a line unchanged, drive it
low and drive it high, and the eight values a modem-control request can carry (the patterns are the spec's
decision D19, which it takes from general knowledge; log entry 10). -/
def Obligations.ModemValuesAreThePatterns : Prop :=
  (lineSelOf 0 = some .keep ∧ lineSelOf 1 = none ∧ lineSelOf 2 = some .low ∧ lineSelOf 3 = some .high) ∧
    modemValue .low .keep = 0x0100 ∧ modemValue .high .keep = 0x0101 ∧
    modemValue .keep .low = 0x0200 ∧ modemValue .keep .high = 0x0202 ∧
    modemValue .low .low = 0x0300 ∧ modemValue .high .low = 0x0301 ∧
    modemValue .low .high = 0x0302 ∧ modemValue .high .high = 0x0303 ∧
    modemValue .keep .keep = 0x0000

/-- R236 and R171: a response with an error status holds that status, no request and no value in any other
field, and the step changed nothing but the transaction it answered; a status other than OK comes with no
request. -/
def Obligations.ErrorsLeaveNothingButTheStatus : Prop :=
  ∀ (s t : State) (tx : Transaction) (rest : List Transaction) (c : Byte),
    s.presented = tx :: rest → step s = .next t → t.lastResponse.status = some c →
    (errorCode c → t = s.answered tx rest (statusOnly c)) ∧
      (c ≠ 0x00 → t.lastResponse.reqs = [])

/-- R230: the codes of the five statuses and which are errors; no response holds another code;
INVALID_ARGUMENT comes only from a command with an illegal field or operand, UNSUPPORTED_BAUD only from
REQ_SET_BAUD and REQ_CONFIGURE, SHORT_FRAME only from STRIP_FRAME, and ILLEGAL_COMMAND only from a word that
does not decode (the numbers are the spec's decision D6). -/
def Obligations.StatusesComeOnlyFromTheirCommands : Prop :=
  (Status.code .ok = 0x00 ∧ Status.code .invalidArgument = 0x01 ∧ Status.code .unsupportedBaud = 0x02 ∧
      Status.code .illegalCommand = 0x03 ∧ Status.code .shortFrame = 0x04 ∧
      ∀ st : Status, st.isError = true ↔ errorCode st.code) ∧
    ∀ (s t : State) (tx : Transaction) (rest : List Transaction),
      s.presented = tx :: rest → step s = .next t →
      ∃ c : Byte, t.lastResponse.status = some c ∧ c.toNat ≤ 4 ∧
        (c = 0x01 → ∃ i, decode tx.cmd = .ok i ∧ ¬ argumentsLegal s.maxPacket tx i) ∧
        (c = 0x02 → ∃ i, decode tx.cmd = .ok i ∧ consumesBaud i = true) ∧
        (c = 0x03 ↔ ∃ why, decode tx.cmd = .error why) ∧
        (c = 0x04 → decode tx.cmd = .ok .stripFrame)

/-- R232 and R235: the status of a response is the cause of highest priority among those the transaction
has: ILLEGAL_COMMAND, then INVALID_ARGUMENT, then UNSUPPORTED_BAUD, then SHORT_FRAME, then OK; and where
that cause is an error the response records nothing besides the code (the order is the spec's decision D7). -/
def Obligations.StatusIsTheCauseOfHighestPriority : Prop :=
  ([Status.illegalCommand, .invalidArgument, .unsupportedBaud, .shortFrame, .ok].map Status.priority
      = [1, 2, 3, 4, 5]) ∧
    ∀ (s t : State) (tx : Transaction) (rest : List Transaction),
      s.presented = tx :: rest → step s = .next t →
      ∃ st : Status, t.lastResponse.status = some st.code ∧ hasCause s.maxPacket tx st ∧
        (∀ st' : Status, hasCause s.maxPacket tx st' → st.priority ≤ st'.priority) ∧
        (errorCode st.code → t.lastResponse = statusOnly st.code)

/-- R34 (the spec's decision D36): a response holds a value only in the fields its command writes, and in
none when the command ended with an error; reading a field that holds no value is a fault of the reader that
names the field. -/
def Obligations.UnwrittenFieldsHoldNoValueAndFaultOnRead : Prop :=
  (∀ (i : Instr) (s t : State), exec i s = .next t →
    (t.lastResponse.lineValue ≠ none → i.opcode = .encLine) ∧
    (t.lastResponse.divValue ≠ none ∨ t.lastResponse.divIndex ≠ none ∨ t.lastResponse.achieved ≠ none →
      i.opcode = .encBaud ∨ i.opcode = .reqSetBaud ∨ i.opcode = .reqConfigure) ∧
    (t.lastResponse.payload ≠ none ∨ t.lastResponse.payloadLen ≠ none → i = .stripFrame) ∧
    (∀ c, t.lastResponse.status = some c → errorCode c → t.lastResponse = statusOnly c)) ∧
  ∀ r : Response,
    (r.status = none → r.readStatus = .error (.noValue .status)) ∧
    (r.lineValue = none → r.readLineValue = .error (.noValue .lineValue)) ∧
    (r.divValue = none → r.readDivValue = .error (.noValue .divValue)) ∧
    (r.divIndex = none → r.readDivIndex = .error (.noValue .divIndex)) ∧
    (r.achieved = none → r.readAchieved = .error (.noValue .achieved)) ∧
    (r.payload = none → r.readPayload = .error (.noValue .payload)) ∧
    (r.payloadLen = none → r.readPayloadLen = .error (.noValue .payloadLen)) ∧
    (∀ v, r.lineValue = some v → r.readLineValue = .ok v) ∧
    (∀ v, r.divValue = some v → r.readDivValue = .ok v) ∧
    (∀ v, r.achieved = some v → r.readAchieved = .ok v) ∧
    (∀ bs, r.payload = some bs → r.readPayload = .ok bs)

/-! ### Frames -/

/-- Derived from 20_memory.md section 1: a byte of a frame is read exactly at the addresses 0 to FLEN - 1,
address i gives byte i of the sequence the host handed over, and any other address faults (the fault is the
model's, log entry 6). -/
def Obligations.FrameReadsAreTheHostsBytes : Prop :=
  ∀ (bs : List Byte) (i : Nat),
    (∀ h : i < bs.length, (Memory.ofBytes bs).readByte i = .ok bs[i]) ∧
      (bs.length ≤ i → (Memory.ofBytes bs).readByte i = .error (.frameAddress i))

/-- Derived from 43_frame_strip.md section 3: two accepted frames that agree on bytes 2 to NREAD - 1 give
the same response, whatever their header, their stale bytes, their length and the rest of the two
transactions. -/
def Obligations.PayloadIgnoresHeaderAndStaleBytes : Prop :=
  ∀ (s s' t t' : State) (tx tx' : Transaction) (rest rest' : List Transaction),
    s.presented = tx :: rest → s'.presented = tx' :: rest' → tx.nread = tx'.nread →
    tx.frame.flen ≤ s.maxPacket.toNat → tx.nread.toNat ≤ tx.frame.flen →
    tx'.frame.flen ≤ s'.maxPacket.toNat → tx'.nread.toNat ≤ tx'.frame.flen →
    (∀ i, 2 ≤ i → i < tx.nread.toNat → tx.frame.byteAt i = tx'.frame.byteAt i) →
    exec .stripFrame s = .next t → exec .stripFrame s' = .next t' →
    t.lastResponse = t'.lastResponse

/-- Derived from 43_frame_strip.md section 3: on an accepted frame PAYLOAD_LEN is NREAD - 2, or 0 below 2;
it is the length of PAYLOAD and at most MAX_PACKET - 2; and a host that takes PAYLOAD_LEN bytes takes the
payload. -/
def Obligations.PayloadLengthIsTheCountLessTheHeader : Prop :=
  ∀ (s t : State) (tx : Transaction) (rest : List Transaction),
    s.presented = tx :: rest → legalInstance s →
    tx.frame.flen ≤ s.maxPacket.toNat → tx.nread.toNat ≤ tx.frame.flen →
    exec .stripFrame s = .next t →
    ∃ bs n, t.lastResponse.payload = some bs ∧ t.lastResponse.payloadLen = some n ∧
      n.toNat = bs.length ∧ n.toNat = tx.nread.toNat - 2 ∧ n.toNat ≤ s.maxPacket.toNat - 2 ∧
      takePayload t.lastResponse = .ok bs

/-! ### State, reset and independence -/

/-- Derived from 70_reset_and_hazards.md section 1, over the parameters of log entry 1: reset leaves no
transaction in progress, no response field with a value, and the parameters at the values the instance was
created with; a later reset of the block leaves the same but for its own parameters. That the reset leaves
no waiting transaction either is the reading of log entry 9, and that REQS then reads as the empty list is
the choice of log entry 19. -/
def Obligations.ResetLeavesNoTransactionAndNoValue : Prop :=
  (State.reset.presented = [] ∧ State.reset.lastResponse = Response.noValue ∧
      State.reset.portIndex = Config.portIndex ∧ State.reset.maxPacket = Config.maxPacket) ∧
    ∀ s : State, s.blockReset.presented = [] ∧ s.blockReset.lastResponse = Response.noValue ∧
      s.blockReset.portIndex = s.portIndex ∧ s.blockReset.maxPacket = s.maxPacket

/-- Derived from 70_reset_and_hazards.md section 1: a reset abandons the transactions in progress: no agent
receives a response for them; and the next command after the reset is answered as it would be with nothing
before it. That every transaction not yet answered counts as in progress is the reading of log entry 9. That
a step right after the reset changes nothing is the idle step of log entry 4. -/
def Obligations.ResetAbandonsTheTransactionInProgress : Prop :=
  ∀ (s : State) (tx : Transaction) (agent : Nat),
    s.blockReset.responsesTo agent = [] ∧ step s.blockReset = .next s.blockReset ∧
      ∃ t t', step (s.blockReset.present tx) = .next t ∧
        step { s with presented := [tx] } = .next t' ∧ t.lastResponse = t'.lastResponse ∧
        t.presented = []

/-- Derived from 10_state.md sections 2 and 5, 20_memory.md section 1, and the sections that bound a
response: 40_line_encoding.md section 1, 41_baud_encoding.md sections 2, 3 and 5, 42_control_requests.md
section 1, 43_frame_strip.md section 3 and 60_exceptions.md sections 1 and 3. The invariant that every step
keeps: a legal MAX_PACKET, frames in canonical form, and every response within the contract of
`responseLegal`. The canonical form of a frame is the model's representation (log entry 5). -/
def Obligations.EveryStepKeepsTheMachineInvariant : Prop :=
  ∀ s t : State, machineInvariant s → step s = .next t → machineInvariant t

/-- Derived from 70_reset_and_hazards.md sections 1 and 2, over the parameters of log entry 1: the invariant
holds right after reset, whatever the parameters of the instance are. The canonical form of frames in it is
the model's representation (log entry 5). -/
def Obligations.ResetMeetsTheMachineInvariant : Prop := machineInvariant State.reset

/-- R33: no response depends on any earlier command: two states with the same parameters whose next
transactions carry the same inputs give the same response, whatever was answered before, whatever is
presented after, and whoever presents it. -/
def Obligations.ResponsesDependOnOwnInputsOnly : Prop :=
  ∀ (s s' t t' : State) (tx tx' : Transaction) (rest rest' : List Transaction),
    s.portIndex = s'.portIndex → s.maxPacket = s'.maxPacket →
    s.presented = tx :: rest → s'.presented = tx' :: rest' →
    tx.cmd = tx'.cmd → tx.baud = tx'.baud → tx.frame = tx'.frame → tx.nread = tx'.nread →
    step s = .next t → step s' = .next t' → t.lastResponse = t'.lastResponse

/-- Derived from 10_state.md sections 2 and 3: an input or parameter a command does not read has no effect
on its response: BAUD and PORT_INDEX matter to ENC_BAUD, REQ_SET_BAUD and REQ_CONFIGURE only, and FRAME,
NREAD and MAX_PACKET to STRIP_FRAME only. -/
def Obligations.IgnoredInputsHaveNoEffect : Prop :=
  ∀ (s s' t t' : State) (tx tx' : Transaction) (rest rest' : List Transaction) (i : Instr),
    s.presented = tx :: rest → s'.presented = tx' :: rest' →
    ((baudField i).isSome → tx.baud = tx'.baud ∧ s.portIndex = s'.portIndex) →
    (i = .stripFrame → tx.frame = tx'.frame ∧ tx.nread = tx'.nread ∧ s.maxPacket = s'.maxPacket) →
    exec i s = .next t → exec i s' = .next t' → t.lastResponse = t'.lastResponse

/-- R59: every interleaving gives every agent the same responses it would get alone: from any state, the
responses an agent receives when all presented transactions are answered are those it receives when only its
own were presented. It speaks in the model's lists of presented and completed transactions and its agent tag
(log entries 2 and 3). -/
def Obligations.InterleavingGivesEachAgentItsOwnResponses : Prop :=
  ∀ (s : State) (agent : Nat),
    let own := s.presented.filter fun tx => tx.agent == agent
    ∃ t t' : State,
      Host.Core.run Sys2Proof.core s.presented.length s = .next t ∧
      Host.Core.run Sys2Proof.core own.length { s with presented := own } = .next t' ∧
      t.presented = [] ∧ t'.presented = [] ∧ t.responsesTo agent = t'.responsesTo agent

/-! ### The host's side -/

/-- Derived from 60_exceptions.md section 6, in the model's host of log entry 13: requests are submitted in
list order; if the transport accepts the first ones and fails the next, exactly those are submitted, the
rest of the list is not, and the failure is surfaced unchanged; if it accepts all, all are submitted. -/
def Obligations.SubmissionStopsAtTheFirstFailure : Prop :=
  ∀ (h : HostAgent) (done : List ControlRequest),
    (∀ (q : ControlRequest) (later : List ControlRequest) (e : TransportError)
        (more : List (Option TransportError)),
      h.pending = done ++ q :: later → h.transport = List.replicate done.length none ++ some e :: more →
      let h' := HostAgent.submitOne^[done.length + 1] h
      h'.submitted = h.submitted ++ done ∧ h'.pending = [] ∧ h'.failure = some e ∧ h'.transport = more) ∧
    (∀ more : List (Option TransportError),
      h.pending = done → h.transport = List.replicate done.length none ++ more →
      let h' := HostAgent.submitOne^[done.length] h
      h'.submitted = h.submitted ++ done ∧ h'.pending = [] ∧ h'.failure = h.failure ∧ h'.transport = more)

/-- Derived from 60_exceptions.md section 6, for the host that takes the transition as soon as it may (log
entry 14) and drives one device (log entry 20): after a REQ_CONFIGURE answered OK the session is CONFIGURED
once every request was submitted; after any command whose submission fails it is as it was before,
UNCONFIGURED if the host has issued nothing else; and where a command makes it CONFIGURED, the command was
answered OK, all its requests were submitted, and it is REQ_CONFIGURE or the last of a REQ_SET_LINE, a
REQ_SET_BAUD and a REQ_FLOW_CTRL of which the others had succeeded before. -/
def Obligations.ConfiguredOnlyAfterEverySubmission : Prop :=
  ∀ (h : HostAgent) (w : Word) (r : Response) (more : List (Option TransportError)),
    (w.extractLsb' 0 8 = 0x06#8 → r.status = some 0x00 → r.reqs ≠ [] →
      h.transport = List.replicate r.reqs.length none ++ more →
      (HostAgent.submitOne^[r.reqs.length] (h.receive w r)).session = .configured) ∧
    (∀ (k : Nat) (e : TransportError), k < r.reqs.length →
      h.transport = List.replicate k none ++ some e :: more →
      ∀ n : Nat, (HostAgent.submitOne^[n] (h.receive w r)).session = h.session ∧
        (h.records = [] → (HostAgent.submitOne^[n] (h.receive w r)).session = .unconfigured)) ∧
    (∀ n : Nat, h.session = .unconfigured →
      let after := HostAgent.submitOne^[n] (h.receive w r)
      after.session = .configured →
      r.status = some 0x00 ∧ after.submitted = h.submitted ++ r.reqs ∧
        (w.extractLsb' 0 8 = 0x06#8 ∨
          ∀ op ∈ [Opcode.reqSetLine, .reqSetBaud, .reqFlowCtrl],
            w.extractLsb' 0 8 = op.code ∨ h.records.any (·.succeeded op) = true))

/-- Derived from 60_exceptions.md section 6, for the host of log entry 14 that drives one device (log entry
20): after a REQ_SET_LINE, a REQ_SET_BAUD and a REQ_FLOW_CTRL in any order, each answered OK and each with
every request submitted, the session is CONFIGURED; while the last request of the third is not submitted, a
session of a host that has issued nothing else is UNCONFIGURED. -/
def Obligations.ThreeSubmittedCommandsConfigureTheSession : Prop :=
  ∀ (h : HostAgent) (w₁ w₂ w₃ : Word) (r₁ r₂ r₃ : Response) (more : List (Option TransportError)),
    let submitAll := fun (g : HostAgent) (w : Word) (r : Response) =>
      HostAgent.submitOne^[r.reqs.length] (g.receive w r)
    [w₁.extractLsb' 0 8, w₂.extractLsb' 0 8, w₃.extractLsb' 0 8].Perm [0x04#8, 0x03#8, 0x02#8] →
    (∀ r ∈ [r₁, r₂, r₃], r.status = some 0x00 ∧ r.reqs ≠ []) →
    h.transport =
      List.replicate (r₁.reqs.length + r₂.reqs.length + r₃.reqs.length) none ++ more →
    (submitAll (submitAll (submitAll h w₁ r₁) w₂ r₂) w₃ r₃).session = .configured ∧
      (h.records = [] → ∀ n < r₃.reqs.length,
        (HostAgent.submitOne^[n] ((submitAll (submitAll h w₁ r₁) w₂ r₂).receive w₃ r₃)).session
          = .unconfigured)

/-- Derived from 60_exceptions.md section 6, in the model's composition of log entries 13 and 15: a program
has ended only when the block has returned one response to each of its commands, in order, and no request is
left to submit; a program with a command that has no response has not ended, whatever the transport did; and
a run that has ended stays as it is. -/
def Obligations.EndedProgramsHaveEveryResponse : Prop :=
  ∀ (s : State) (program : List Transaction) (transport : List (Option TransportError)) (k : Nat) (y : System),
    s.presented = [] → System.run k ⟨s, HostAgent.start program transport⟩ = .next y →
    (y.block.completed.map (·.tx)) ++ y.host.program = s.completed.map (·.tx) ++ program ∧
      (y.host.ended = true ↔
        y.block.completed.map (·.tx) = s.completed.map (·.tx) ++ program ∧ y.host.pending = []) ∧
      (y.host.ended = true → y.step = .next y)

/-- Derived from 60_exceptions.md section 6 and 42_control_requests.md section 8, in the model's composition
of log entry 15: the block with its host always answers, and a submission, failed or not, leaves the block
as it was. -/
def Obligations.SubmissionsNeverReachTheBlock : Prop :=
  ∀ y : System, ∃ y', y.step = .next y' ∧
    (y.block.presented = [] → y.host.pending ≠ [] → y'.block = y.block)
end

