-- ==== Sys2Proof/Laws/State.lean ====
section
/-!
SUPPORT. One lemma per field for every update of a state or a response record, so that no later proof
unfolds a record update.
-/

namespace Sys2Proof.Machine

/-! ### Answering a transaction -/

section answered
variable (s : State) (tx : Transaction) (rest : List Transaction) (r : Response)

@[simp] theorem State.answered_portIndex : (s.answered tx rest r).portIndex = s.portIndex := rfl
@[simp] theorem State.answered_maxPacket : (s.answered tx rest r).maxPacket = s.maxPacket := rfl
@[simp] theorem State.answered_presented : (s.answered tx rest r).presented = rest := rfl
@[simp] theorem State.answered_completed :
    (s.answered tx rest r).completed = s.completed ++ [⟨tx, r⟩] := rfl

@[simp] theorem State.answered_lastResponse : (s.answered tx rest r).lastResponse = r := by
  simp [State.lastResponse]

end answered

/-! ### Presenting and resetting -/

section inputs
variable (s : State) (tx : Transaction)

@[simp] theorem State.present_portIndex : (s.present tx).portIndex = s.portIndex := rfl
@[simp] theorem State.present_maxPacket : (s.present tx).maxPacket = s.maxPacket := rfl
@[simp] theorem State.present_presented : (s.present tx).presented = s.presented ++ [tx] := rfl
@[simp] theorem State.present_completed : (s.present tx).completed = s.completed := rfl

@[simp] theorem State.blockReset_portIndex : s.blockReset.portIndex = s.portIndex := rfl
@[simp] theorem State.blockReset_maxPacket : s.blockReset.maxPacket = s.maxPacket := rfl
@[simp] theorem State.blockReset_presented : s.blockReset.presented = [] := rfl
@[simp] theorem State.blockReset_completed : s.blockReset.completed = [] := rfl

@[simp] theorem State.reset_portIndex : State.reset.portIndex = Config.portIndex := rfl
@[simp] theorem State.reset_maxPacket : State.reset.maxPacket = Config.maxPacket := rfl
@[simp] theorem State.reset_presented : State.reset.presented = [] := rfl
@[simp] theorem State.reset_completed : State.reset.completed = [] := rfl

theorem State.withWord_portIndex (c : Word) : (s.withWord c).portIndex = s.portIndex := by
  unfold State.withWord; split <;> rfl

theorem State.withWord_maxPacket (c : Word) : (s.withWord c).maxPacket = s.maxPacket := by
  unfold State.withWord; split <;> rfl

theorem State.withWord_completed (c : Word) : (s.withWord c).completed = s.completed := by
  unfold State.withWord; split <;> rfl

/-- The word stands where the next step reads it. -/
theorem State.withWord_presentedWord (c : Word) : (s.withWord c).presentedWord = some c := by
  unfold State.withWord; split <;> rfl

end inputs

/-! ### Building a response -/

section response
variable (st : Status) (r : Response) (q : ControlRequest) (v i : Half) (a : Word) (bs : List Byte)

@[simp] theorem Response.ofStatus_status : (Response.ofStatus st).status = some st.code := rfl
@[simp] theorem Response.ofStatus_lineValue : (Response.ofStatus st).lineValue = none := rfl
@[simp] theorem Response.ofStatus_divValue : (Response.ofStatus st).divValue = none := rfl
@[simp] theorem Response.ofStatus_divIndex : (Response.ofStatus st).divIndex = none := rfl
@[simp] theorem Response.ofStatus_achieved : (Response.ofStatus st).achieved = none := rfl
@[simp] theorem Response.ofStatus_reqs : (Response.ofStatus st).reqs = [] := rfl
@[simp] theorem Response.ofStatus_payload : (Response.ofStatus st).payload = none := rfl
@[simp] theorem Response.ofStatus_payloadLen : (Response.ofStatus st).payloadLen = none := rfl

@[simp] theorem Response.emit_status : (r.emit q).status = r.status := rfl
@[simp] theorem Response.emit_lineValue : (r.emit q).lineValue = r.lineValue := rfl
@[simp] theorem Response.emit_divValue : (r.emit q).divValue = r.divValue := rfl
@[simp] theorem Response.emit_divIndex : (r.emit q).divIndex = r.divIndex := rfl
@[simp] theorem Response.emit_achieved : (r.emit q).achieved = r.achieved := rfl
@[simp] theorem Response.emit_reqs : (r.emit q).reqs = r.reqs ++ [q] := rfl
@[simp] theorem Response.emit_payload : (r.emit q).payload = r.payload := rfl
@[simp] theorem Response.emit_payloadLen : (r.emit q).payloadLen = r.payloadLen := rfl

@[simp] theorem Response.setLineValue_status : (r.setLineValue v).status = r.status := rfl
@[simp] theorem Response.setLineValue_lineValue : (r.setLineValue v).lineValue = some v := rfl
@[simp] theorem Response.setLineValue_divValue : (r.setLineValue v).divValue = r.divValue := rfl
@[simp] theorem Response.setLineValue_divIndex : (r.setLineValue v).divIndex = r.divIndex := rfl
@[simp] theorem Response.setLineValue_achieved : (r.setLineValue v).achieved = r.achieved := rfl
@[simp] theorem Response.setLineValue_reqs : (r.setLineValue v).reqs = r.reqs := rfl
@[simp] theorem Response.setLineValue_payload : (r.setLineValue v).payload = r.payload := rfl
@[simp] theorem Response.setLineValue_payloadLen : (r.setLineValue v).payloadLen = r.payloadLen := rfl

@[simp] theorem Response.setBaud_status : (r.setBaud v i a).status = r.status := rfl
@[simp] theorem Response.setBaud_lineValue : (r.setBaud v i a).lineValue = r.lineValue := rfl
@[simp] theorem Response.setBaud_divValue : (r.setBaud v i a).divValue = some v := rfl
@[simp] theorem Response.setBaud_divIndex : (r.setBaud v i a).divIndex = some i := rfl
@[simp] theorem Response.setBaud_achieved : (r.setBaud v i a).achieved = some a := rfl
@[simp] theorem Response.setBaud_reqs : (r.setBaud v i a).reqs = r.reqs := rfl
@[simp] theorem Response.setBaud_payload : (r.setBaud v i a).payload = r.payload := rfl
@[simp] theorem Response.setBaud_payloadLen : (r.setBaud v i a).payloadLen = r.payloadLen := rfl

@[simp] theorem Response.setPayload_status : (r.setPayload bs v).status = r.status := rfl
@[simp] theorem Response.setPayload_lineValue : (r.setPayload bs v).lineValue = r.lineValue := rfl
@[simp] theorem Response.setPayload_divValue : (r.setPayload bs v).divValue = r.divValue := rfl
@[simp] theorem Response.setPayload_divIndex : (r.setPayload bs v).divIndex = r.divIndex := rfl
@[simp] theorem Response.setPayload_achieved : (r.setPayload bs v).achieved = r.achieved := rfl
@[simp] theorem Response.setPayload_reqs : (r.setPayload bs v).reqs = r.reqs := rfl
@[simp] theorem Response.setPayload_payload : (r.setPayload bs v).payload = some bs := rfl
@[simp] theorem Response.setPayload_payloadLen : (r.setPayload bs v).payloadLen = some v := rfl

end response

end Sys2Proof.Machine
end

