-- ==== Sys2Proof/Laws/Baud.lean ====
section
/-!
SUPPORT. The arithmetic of the baud-divisor calculator, pushed down to division and remainder
(41_baud_encoding.md R125 to R152).
-/

namespace Sys2Proof.Machine

@[simp] theorem fraction_eq_mod (d8 : Nat) : fraction d8 = d8 % 8 := Nat.and_two_pow_sub_one_eq_mod d8 3

theorem fraction_lt (d8 : Nat) : fraction d8 < 8 := by rw [fraction_eq_mod]; omega

@[simp] theorem halveUp_eq_div (n : Nat) : halveUp n = (n + 1) / 2 := by
  simp [halveUp, Nat.shiftRight_eq_div_pow]

/-- The fractional code fits 3 bits (10_state.md R25). -/
theorem romAt_fracCode_lt (d8 : Nat) : romAt fracCodeRom d8 < 8 := by
  unfold romAt
  have h := fraction_lt d8
  generalize fraction d8 = f at h
  interval_cases f <;> decide

theorem romAt_amAdjustDn_le (d8 : Nat) : romAt amAdjustDnRom d8 ≤ 3 := by
  unfold romAt
  have h := fraction_lt d8
  generalize fraction d8 = f at h
  interval_cases f <;> decide

theorem romAt_amAdjustUp_le (d8 : Nat) : romAt amAdjustUpRom d8 ≤ 3 := by
  unfold romAt
  have h := fraction_lt d8
  generalize fraction d8 = f at h
  interval_cases f <;> decide

/-- A packed divisor as a sum, when its integer part fits 14 bits (41_baud_encoding.md R132, R145). -/
theorem packDivisor_eq (d8 : Nat) (h : d8 < 0x20000) :
    packDivisor d8 = romAt fracCodeRom d8 * 2 ^ 14 + d8 / 8 := by
  have hk : d8 >>> 3 < 2 ^ 14 := by rw [Nat.shiftRight_eq_div_pow]; omega
  unfold packDivisor
  rw [Nat.or_comm, ← Nat.shiftLeft_add_eq_or_of_lt hk, Nat.shiftLeft_eq, Nat.shiftRight_eq_div_pow]

theorem packDivisor_lt (d8 : Nat) (h : d8 < 0x20000) : packDivisor d8 < 2 ^ 17 := by
  have := romAt_fracCode_lt d8
  rw [packDivisor_eq d8 h]
  omega

/-- The adjusted candidate is at least 8, so the estimate never divides by 0
(41_baud_encoding.md R129). -/
theorem amAdjust_bounds (t : Nat) : 8 ≤ amAdjust t ∧ amAdjust t ≤ 0x1FFF8 := by
  unfold amAdjust amMinD8 amMaxD8
  split
  · omega
  · split <;> omega

theorem amSurvivor_cases (baud : Nat) :
    amSurvivor baud = amCandidate baud 0 ∨ amSurvivor baud = amCandidate baud 1 := by
  simp only [amSurvivor]
  split
  · exact .inl rfl
  · split
    · exact .inr rfl
    · exact .inl rfl

end Sys2Proof.Machine
end

