-- ==== Sys2Proof/Laws/Decode.lean ====
section
/-!
SUPPORT. The command word and its fields are two views of the same 32 bits (30_encoding.md R70, R71), and
what the decoder can answer (30_encoding.md R72).
-/

namespace Sys2Proof

/-- Taking a word apart gives the fields it was put together from: the masks do not overlap
(30_encoding.md R71). -/
theorem CmdFields.ofWord_toWord (f : CmdFields) : CmdFields.ofWord f.toWord = f := by
  obtain ⟨a, b, c, d, e, g, h, i, j, k⟩ := f
  simp only [CmdFields.ofWord, CmdFields.toWord, CmdFields.mk.injEq]
  refine ⟨?_, ?_, ?_, ?_, ?_, ?_, ?_, ?_, ?_, ?_⟩ <;>
  · apply BitVec.eq_of_getLsbD_eq
    intro n hn
    simp only [BitVec.getLsbD_extractLsb', BitVec.getLsbD_append]
    have : n < 8 := by omega
    interval_cases n <;> simp

/-- The fields of a word are all of it: the masks together cover 32 bits (30_encoding.md R71). -/
theorem CmdFields.toWord_ofWord (w : Word) : (CmdFields.ofWord w).toWord = w := by
  apply BitVec.eq_of_getLsbD_eq
  intro n hn
  simp only [CmdFields.ofWord, CmdFields.toWord, BitVec.getLsbD_extractLsb', BitVec.getLsbD_append]
  interval_cases n <;> simp

/-- The fields of a command's word are the command's fields. -/
@[simp] theorem ofWord_encode (i : Instr) : CmdFields.ofWord (encode i) = i.fields :=
  CmdFields.ofWord_toWord _

@[simp] theorem Instr.fields_opc (i : Instr) : i.fields.opc = i.opcode.code := by
  cases i <;> rfl

/-- Each opcode's value names it (30_encoding.md R81). -/
@[simp] theorem Opcode.ofCode_code (op : Opcode) : Opcode.ofCode op.code = some op := by
  cases op <;> decide

/-- A value of OPC that names an opcode is the opcode's value (30_encoding.md R81). -/
theorem Opcode.code_of_ofCode {c : BitVec 8} {op : Opcode} (h : Opcode.ofCode c = some op) :
    op.code = c := by
  simpa using List.find?_some h

/-- Everything the decoder can answer (30_encoding.md R72, R83). -/
theorem decode_cases (w : Word) :
    (∃ op : Opcode, (CmdFields.ofWord w).opc = op.code ∧ op.accepts w = true ∧
        decode w = .ok (op.assemble (CmdFields.ofWord w))) ∨
      (∃ op : Opcode, (CmdFields.ofWord w).opc = op.code ∧ op.accepts w = false ∧
        decode w = .error (.unusedFieldNonZero op)) ∨
      ((∀ op : Opcode, (CmdFields.ofWord w).opc ≠ op.code) ∧
        decode w = .error (.unassignedOpcode (CmdFields.ofWord w).opc)) := by
  cases hc : Opcode.ofCode (CmdFields.ofWord w).opc with
  | none =>
      refine .inr (.inr ⟨fun op h => ?_, by simp [decode, hc]⟩)
      rw [h, Opcode.ofCode_code] at hc
      cases hc
  | some op =>
      have ho := (Opcode.code_of_ofCode hc).symm
      cases ha : op.accepts w with
      | true => exact .inl ⟨op, ho, ha, by simp [decode, hc, ha]⟩
      | false => exact .inr (.inl ⟨op, ho, ha, by simp [decode, hc, ha]⟩)

end Sys2Proof
end

