-- ==== Sys2Proof/Laws/Ops.lean ====
section
/-!
SUPPORT. For each shared operation, one lemma that says everything it can do; later proofs cite it
instead of unfolding the operation.
-/

namespace Sys2Proof.Machine

/-- With a transaction presented, `answer` answers it with what the body computes. -/
theorem answer_cons {body : Transaction → Except Fault Response} {s : State} {tx : Transaction}
    {rest : List Transaction} {r : Response} (h : s.presented = tx :: rest) (hb : body tx = .ok r) :
    answer body s = .next (s.answered tx rest r) := by
  simp [answer, h, hb]

/-- Everything `answer` can do when it answers a next state. -/
theorem answer_next {body : Transaction → Except Fault Response} {s t : State}
    (h : answer body s = .next t) :
    ∃ tx rest r, s.presented = tx :: rest ∧ body tx = .ok r ∧ t = s.answered tx rest r := by
  unfold answer at h
  split at h
  · cases h
  · rename_i tx rest hp
    split at h
    · cases h
    · rename_i r hb
      cases h
      exact ⟨tx, rest, r, hp, hb, rfl⟩

/-- `answer` faults only for want of a transaction or by its body's own fault. -/
theorem answer_fault {body : Transaction → Except Fault Response} {s : State} {f : Fault}
    (h : answer body s = .fault f) :
    (s.presented = [] ∧ f = .noTransaction) ∨
      ∃ tx rest, s.presented = tx :: rest ∧ body tx = .error f := by
  unfold answer at h
  split at h
  · rename_i hp
    cases h
    exact .inl ⟨hp, rfl⟩
  · rename_i tx rest hp
    split at h
    · rename_i g hb
      cases h
      exact .inr ⟨tx, rest, hp, hb⟩
    · cases h

/-- A body that always responds answers the presented transaction. -/
theorem answer_pure (g : Transaction → Response) {s : State} {tx : Transaction}
    {rest : List Transaction} (h : s.presented = tx :: rest) :
    answer (fun tx => .ok (g tx)) s = .next (s.answered tx rest (g tx)) :=
  answer_cons h rfl

@[simp] theorem withArgument_some {α : Type} (a : α) (body : α → Response) :
    withArgument (some a) body = body a := rfl

@[simp] theorem withArgument_none {α : Type} (body : α → Response) :
    withArgument none body = raise .invalidArgument := rfl

/-- Everything `withArgument` can do. -/
theorem withArgument_cases {α : Type} (arg : Option α) (body : α → Response) :
    (arg = none ∧ withArgument arg body = raise .invalidArgument) ∨
      ∃ a, arg = some a ∧ withArgument arg body = body a := by
  cases arg with
  | none => exact .inl ⟨rfl, rfl⟩
  | some a => exact .inr ⟨a, rfl, rfl⟩

/-- Everything `withTolerance` can do. -/
theorem withTolerance_cases (b : BaudResult) (body : BaudResult → Response) :
    (tolOk b.req b.ach = false ∧ withTolerance b body = raise .unsupportedBaud) ∨
      (tolOk b.req b.ach = true ∧ withTolerance b body = body b) := by
  unfold withTolerance
  cases h : tolOk b.req b.ach <;> simp

/-- A raised status leaves every field but STATUS without a value. -/
theorem raise_fields (st : Status) :
    (raise st).status = some st.code ∧ (raise st).lineValue = none ∧ (raise st).divValue = none ∧
      (raise st).divIndex = none ∧ (raise st).achieved = none ∧ (raise st).reqs = [] ∧
      (raise st).payload = none ∧ (raise st).payloadLen = none :=
  ⟨rfl, rfl, rfl, rfl, rfl, rfl, rfl, rfl⟩

@[simp] theorem readField_some {α : Type} (f : ResponseField) (v : α) :
    readField f (some v) = .ok v := rfl

@[simp] theorem readField_none {α : Type} (f : ResponseField) :
    readField f (none : Option α) = .error (.noValue f) := rfl

/-- Everything `step` can do: nothing, an ILLEGAL_COMMAND answer, or the decoded command. -/
theorem step_cases (s : State) :
    (s.presented = [] ∧ step s = .next s) ∨
      (∃ tx rest why, s.presented = tx :: rest ∧ decode tx.cmd = .error why ∧
        step s = .next (s.answered tx rest (raise .illegalCommand))) ∨
      ∃ tx rest i, s.presented = tx :: rest ∧ decode tx.cmd = .ok i ∧ step s = exec i s := by
  cases hp : s.presented with
  | nil => exact .inl ⟨rfl, by simp [step, State.presentedWord, hp, idle]⟩
  | cons tx rest =>
      refine .inr ?_
      cases hd : decode tx.cmd with
      | error why =>
          refine .inl ⟨tx, rest, why, rfl, hd, ?_⟩
          simp [step, State.presentedWord, hp, hd, rejectWord, answer]
      | ok i => exact .inr ⟨tx, rest, i, rfl, hd, by simp [step, State.presentedWord, hp, hd]⟩

end Sys2Proof.Machine
end

