-- ==== Sys2Proof/Laws/Exec.lean ====
section
/-!
SUPPORT. What each command does, as one equation per instruction over `answer`, and the frame of every
command, so that later proofs unfold neither `exec` nor a meaning.
-/

namespace Sys2Proof.Machine

section equations
variable (s : State)

theorem exec_reqReset : exec .reqReset s = answer (fun _ => .ok reqResetResponse) s := rfl

theorem exec_reqModemCtrl (dtr rts : BitVec 2) :
    exec (.reqModemCtrl dtr rts) s = answer (fun _ => .ok (reqModemCtrlResponse dtr rts)) s := rfl

theorem exec_reqFlowCtrl (flow : BitVec 3) :
    exec (.reqFlowCtrl flow) s = answer (fun _ => .ok (reqFlowCtrlResponse flow)) s := rfl

theorem exec_reqSetBaud (fam : BitVec 2) :
    exec (.reqSetBaud fam) s = answer (fun tx => .ok (reqSetBaudResponse s.portIndex fam tx.baud)) s := rfl

theorem exec_reqSetLine (dbits : BitVec 4) (par : BitVec 3) (stop : BitVec 2) (brk : BitVec 1) :
    exec (.reqSetLine dbits par stop brk) s =
      answer (fun _ => .ok (reqSetLineResponse dbits par stop brk)) s := rfl

theorem exec_reqPollStatus : exec .reqPollStatus s = answer (fun _ => .ok reqPollStatusResponse) s := rfl

theorem exec_reqConfigure (fam : BitVec 2) (dbits : BitVec 4) (par : BitVec 3) (stop : BitVec 2)
    (brk : BitVec 1) (flow : BitVec 3) (dtr rts : BitVec 2) :
    exec (.reqConfigure fam dbits par stop brk flow dtr rts) s =
      answer (fun tx =>
        .ok (reqConfigureResponse s.portIndex fam dbits par stop brk flow dtr rts tx.baud)) s := rfl

theorem exec_encLine (dbits : BitVec 4) (par : BitVec 3) (stop : BitVec 2) (brk : BitVec 1) :
    exec (.encLine dbits par stop brk) s =
      answer (fun _ => .ok (encLineResponse dbits par stop brk)) s := rfl

theorem exec_encBaud (fam : BitVec 2) :
    exec (.encBaud fam) s = answer (fun tx => .ok (encBaudResponse s.portIndex fam tx.baud)) s := rfl

theorem exec_stripFrame :
    exec .stripFrame s = answer (fun tx => stripFrameResponse s.maxPacket tx.frame tx.nread) s := rfl

end equations

/-- Every command is the answer to the presented transaction. -/
theorem exec_eq_answer (i : Instr) (s : State) : ∃ body, exec i s = answer body s := by
  cases i with
  | reqReset => exact ⟨_, exec_reqReset s⟩
  | reqModemCtrl dtr rts => exact ⟨_, exec_reqModemCtrl s dtr rts⟩
  | reqFlowCtrl flow => exact ⟨_, exec_reqFlowCtrl s flow⟩
  | reqSetBaud fam => exact ⟨_, exec_reqSetBaud s fam⟩
  | reqSetLine dbits par stop brk => exact ⟨_, exec_reqSetLine s dbits par stop brk⟩
  | reqPollStatus => exact ⟨_, exec_reqPollStatus s⟩
  | reqConfigure fam dbits par stop brk flow dtr rts =>
      exact ⟨_, exec_reqConfigure s fam dbits par stop brk flow dtr rts⟩
  | encLine dbits par stop brk => exact ⟨_, exec_encLine s dbits par stop brk⟩
  | encBaud fam => exact ⟨_, exec_encBaud s fam⟩
  | stripFrame => exact ⟨_, exec_stripFrame s⟩

/-- The frame of every command: if it answers a next state, it answered the transaction presented next and
changed nothing else (10_state.md R23, 20_memory.md R50). -/
theorem exec_next {i : Instr} {s t : State} (h : exec i s = .next t) :
    ∃ tx rest r, s.presented = tx :: rest ∧ t = s.answered tx rest r := by
  obtain ⟨body, hb⟩ := exec_eq_answer i s
  obtain ⟨tx, rest, r, hp, _, ht⟩ := answer_next (hb ▸ h)
  exact ⟨tx, rest, r, hp, ht⟩

/-- A step that has a transaction to answer leaves the rest of the presented transactions as they were. -/
theorem exec_next_presented {i : Instr} {s t : State} (h : exec i s = .next t) :
    t.presented = s.presented.tail := by
  obtain ⟨tx, rest, r, hp, rfl⟩ := exec_next h
  simp [hp]

end Sys2Proof.Machine
end

