-- ==== Sys2Proof/Laws/HostSide.lean ====
section
/-!
SUPPORT. What each operation of the host's side can do, one equation per case, and one lemma per field of a
received response (60_exceptions.md R246 to R249).
-/

namespace Sys2Proof.Machine

section submission
variable (h : HostAgent) (q : ControlRequest) (rest : List ControlRequest)
  (more : List (Option TransportError))

/-- With nothing to submit, a submission step changes nothing. -/
theorem HostAgent.submitOne_nil (hp : h.pending = []) : h.submitOne = h := by
  simp [HostAgent.submitOne, hp]

/-- A submission that the transport has not completed blocks. -/
theorem HostAgent.submitOne_blocked (ht : h.transport = []) : h.submitOne = h := by
  unfold HostAgent.submitOne
  split
  · rfl
  · simp [ht]

/-- A submission that succeeds moves the first pending request to the submitted ones. -/
theorem HostAgent.submitOne_ok (hp : h.pending = q :: rest) (ht : h.transport = none :: more) :
    h.submitOne = { h with pending := rest, submitted := h.submitted ++ [q], transport := more,
                           records := if rest = [] then markSubmitted h.records else h.records } := by
  simp [HostAgent.submitOne, hp, ht]

/-- A submission that fails abandons the pending requests and surfaces the failure. -/
theorem HostAgent.submitOne_failed (e : TransportError) (hp : h.pending = q :: rest)
    (ht : h.transport = some e :: more) :
    h.submitOne = { h with pending := [], transport := more, failure := some e } := by
  simp [HostAgent.submitOne, hp, ht]

/-- A submission step issues no command. -/
@[simp] theorem HostAgent.submitOne_program : h.submitOne.program = h.program := by
  unfold HostAgent.submitOne
  split
  · rfl
  · split <;> rfl

end submission

section receive
variable (h : HostAgent) (w : Word) (r : Response)

@[simp] theorem HostAgent.receive_program : (h.receive w r).program = h.program := rfl
@[simp] theorem HostAgent.receive_pending : (h.receive w r).pending = r.reqs := rfl
@[simp] theorem HostAgent.receive_submitted : (h.receive w r).submitted = h.submitted := rfl
@[simp] theorem HostAgent.receive_transport : (h.receive w r).transport = h.transport := rfl
@[simp] theorem HostAgent.receive_failure : (h.receive w r).failure = h.failure := rfl
@[simp] theorem HostAgent.receive_records :
    (h.receive w r).records = ⟨w, r.status, r.reqs.isEmpty⟩ :: h.records := rfl

end receive

/-- A program has ended when no command and no request is left (60_exceptions.md R249). -/
theorem HostAgent.ended_iff (h : HostAgent) : h.ended = true ↔ h.program = [] ∧ h.pending = [] := by
  simp [HostAgent.ended]

/-- A host that stopped at a failure with commands left has not ended its program. -/
theorem HostAgent.not_ended_of_stoppedEarly (h : HostAgent) (hs : h.stoppedEarly = true) :
    h.ended = false := by
  simp only [HostAgent.stoppedEarly, Bool.and_eq_true, Bool.not_eq_true'] at hs
  simp [HostAgent.ended, hs.2]

end Sys2Proof.Machine
end

