-- ==== Sys2Proof/Laws/Memory.lean ====
section
/-!
SUPPORT. The frame operand: reads after writes, the canonical form and that every operation keeps it, and
what reading a range gives (20_memory.md R50 to R56).
-/

namespace Sys2Proof.Machine

/-! ### Canonical form -/

theorem cellsWf_weaken {flen low low' : Nat} {cs : List Host.Cell} (hle : low' ≤ low)
    (h : cellsWf flen low cs = true) : cellsWf flen low' cs = true := by
  cases cs with
  | nil => rfl
  | cons c rest =>
      obtain ⟨a, b⟩ := c
      simp only [cellsWf, Bool.and_eq_true, decide_eq_true_eq] at h ⊢
      obtain ⟨⟨⟨h1, h2⟩, h3⟩, h4⟩ := h
      exact ⟨⟨⟨by omega, h2⟩, h3⟩, h4⟩

theorem cellsWrite_wf {flen x : Nat} {v : Byte} (hx : x < flen) :
    ∀ {low : Nat} {cs : List Host.Cell}, low ≤ x → cellsWf flen low cs = true →
      cellsWf flen low (cellsWrite cs x v) = true
  | low, [], hlow, _ => by
      unfold cellsWrite
      split
      · rfl
      · simp [cellsWf, *]
  | low, (a, b) :: rest, hlow, h => by
      have h' := h
      simp only [cellsWf, Bool.and_eq_true, decide_eq_true_eq] at h
      obtain ⟨⟨⟨h1, h2⟩, h3⟩, h4⟩ := h
      unfold cellsWrite
      split
      · rename_i hax
        simp only [cellsWf, Bool.and_eq_true, decide_eq_true_eq]
        exact ⟨⟨⟨h1, h2⟩, h3⟩, cellsWrite_wf hx (by omega) h4⟩
      · split
        · rename_i hax
          subst hax
          split
          · exact cellsWf_weaken (by omega) h4
          · simp [cellsWf, *]
        · split
          · exact h'
          · simp only [cellsWf, Bool.and_eq_true, decide_eq_true_eq]
            exact ⟨⟨⟨hlow, hx⟩, by assumption⟩, ⟨⟨by omega, h2⟩, h3⟩, h4⟩

theorem cellsOfBytes_wf {flen : Nat} :
    ∀ (addr : Nat) (bs : List Byte), addr + bs.length ≤ flen →
      cellsWf flen addr (cellsOfBytes addr bs) = true
  | _, [], _ => rfl
  | addr, b :: rest, h => by
      have hr := cellsOfBytes_wf (addr + 1) rest (flen := flen) (by simp at h; omega)
      unfold cellsOfBytes
      split
      · exact cellsWf_weaken (by omega) hr
      · simp only [List.length_cons] at h
        simp only [cellsWf, Bool.and_eq_true, decide_eq_true_eq]
        exact ⟨⟨⟨by omega, by omega⟩, by assumption⟩, hr⟩

/-- A frame a host hands over is in canonical form. -/
theorem Memory.ofBytes_wf (bs : List Byte) : (Memory.ofBytes bs).wf = true :=
  cellsOfBytes_wf 0 bs (by simp [Memory.ofBytes])

/-- A host's write of one byte keeps the canonical form. -/
theorem Memory.writeByte_wf {m m' : Memory} {addr : Nat} {v : Byte} (h : m.wf = true)
    (hw : m.writeByte addr v = .ok m') : m'.wf = true := by
  unfold Memory.writeByte at hw
  split at hw
  · cases hw
    exact cellsWrite_wf (by assumption) (Nat.zero_le _) h
  · cases hw

/-- A host's overwriting of part of a buffer keeps the canonical form. -/
theorem Memory.overwrite_wf : ∀ {bs : List Byte} {m m' : Memory} {addr : Nat}, m.wf = true →
    m.overwrite addr bs = .ok m' → m'.wf = true
  | [], _, _, _, h, hw => by cases hw; exact h
  | b :: bs, m, m', addr, h, hw => by
      unfold Memory.overwrite at hw
      split at hw
      · cases hw
      · exact Memory.overwrite_wf (Memory.writeByte_wf h (by assumption)) hw

@[simp] theorem State.memoryWf_reset : State.reset.memoryWf = true := rfl

/-- Answering a transaction keeps every frame in canonical form. -/
theorem State.memoryWf_answered {s : State} {tx : Transaction} {rest : List Transaction} {r : Response}
    (hp : s.presented = tx :: rest) (h : s.memoryWf = true) :
    (s.answered tx rest r).memoryWf = true := by
  simp only [State.memoryWf, hp, List.all_cons, Bool.and_eq_true, State.answered_presented,
    State.answered_completed, List.all_append, List.all_nil] at h ⊢
  exact ⟨h.1.2, h.2, h.1.1, trivial⟩

/-- Presenting a transaction whose frame is in canonical form keeps the form. -/
theorem State.memoryWf_present {s : State} {tx : Transaction} (h : s.memoryWf = true)
    (ht : tx.frame.wf = true) : (s.present tx).memoryWf = true := by
  simp only [State.memoryWf, Bool.and_eq_true, State.present_presented, State.present_completed,
    List.all_append, List.all_cons, List.all_nil] at h ⊢
  exact ⟨⟨h.1, ht, trivial⟩, h.2⟩

theorem State.memoryWf_blockReset (s : State) : s.blockReset.memoryWf = true := rfl

theorem State.memoryWf_withWord {s : State} {c : Word} (h : s.memoryWf = true) :
    (s.withWord c).memoryWf = true := by
  unfold State.withWord
  split
  · rename_i hp
    simp only [State.memoryWf, hp, Bool.and_eq_true] at h ⊢
    exact ⟨rfl, h.2⟩
  · rename_i tx rest hp
    simp only [State.memoryWf, hp, List.all_cons, Bool.and_eq_true] at h ⊢
    exact h

/-! ### Reads -/

theorem cellsRead_below {flen : Nat} : ∀ {low x : Nat} {cs : List Host.Cell},
    cellsWf flen low cs = true → x < low → cellsRead cs x = unlistedByte
  | _, _, [], _, _ => rfl
  | low, x, (a, b) :: rest, h, hx => by
      simp only [cellsWf, Bool.and_eq_true, decide_eq_true_eq] at h
      obtain ⟨⟨⟨h1, _⟩, _⟩, h4⟩ := h
      unfold cellsRead
      rw [if_neg (by omega)]
      exact cellsRead_below h4 (by omega)

/-- A read after a write to the same place gives the value written; every other place is left alone. -/
theorem cellsRead_write {flen : Nat} (x : Nat) (v : Byte) (y : Nat) :
    ∀ {low : Nat} {cs : List Host.Cell}, cellsWf flen low cs = true →
      cellsRead (cellsWrite cs x v) y = if y = x then v else cellsRead cs y
  | _, [], _ => by
      unfold cellsWrite
      split
      · rename_i hv; split <;> simp [cellsRead, hv]
      · simp only [cellsRead, eq_comm]
  | low, (a, b) :: rest, h => by
      have h0 := h
      simp only [cellsWf, Bool.and_eq_true, decide_eq_true_eq] at h
      obtain ⟨⟨⟨_, _⟩, _⟩, h4⟩ := h
      unfold cellsWrite
      split
      · rename_i hax
        simp only [cellsRead]
        rw [cellsRead_write x v y h4]
        by_cases hay : a = y
        · rw [if_pos hay, if_pos hay, if_neg (by omega)]
        · rw [if_neg hay, if_neg hay]
      · split
        · rename_i hax
          subst hax
          split
          · rename_i hv
            simp only [cellsRead]
            by_cases hay : a = y
            · subst hay
              rw [if_pos rfl, cellsRead_below h4 (by omega), hv]
            · rw [if_neg (Ne.symm hay), if_neg hay]
          · simp only [cellsRead]
            by_cases hay : a = y
            · subst hay; simp
            · rw [if_neg hay, if_neg (Ne.symm hay), if_neg hay]
        · split
          · rename_i hv
            by_cases hay : y = x
            · subst hay
              rw [if_pos rfl, hv]
              unfold cellsRead
              rw [if_neg (by assumption)]
              exact cellsRead_below h4 (by omega)
            · rw [if_neg hay]
          · simp only [cellsRead]
            by_cases hay : x = y
            · subst hay; simp
            · rw [if_neg hay, if_neg (Ne.symm hay)]

/-- The host's own write, seen through reads (20_memory.md R56). -/
theorem Memory.byteAt_writeByte {m m' : Memory} {addr : Nat} {v : Byte} (h : m.wf = true)
    (hw : m.writeByte addr v = .ok m') (y : Nat) :
    m'.byteAt y = if y = addr then v else m.byteAt y := by
  unfold Memory.writeByte at hw
  split at hw
  · cases hw
    exact cellsRead_write addr v y h
  · cases hw

theorem cellsRead_ofBytes (addr : Nat) :
    ∀ (bs : List Byte) (base : Nat), base ≤ addr →
      cellsRead (cellsOfBytes base bs) addr = bs.getD (addr - base) 0
  | [], _, _ => by simp [cellsOfBytes, cellsRead, unlistedByte]
  | b :: rest, base, h => by
      unfold cellsOfBytes
      by_cases hb : base = addr
      · subst hb
        split
        · rename_i hz
          rw [cellsRead_below (cellsOfBytes_wf (flen := base + 1 + rest.length) (base + 1) rest le_rfl)
            (by omega)]
          simp [hz]
        · simp [cellsRead]
      · have hs : addr - base = (addr - (base + 1)) + 1 := by omega
        have ih := cellsRead_ofBytes addr rest (base + 1) (by omega)
        split
        · rw [ih, hs]; simp
        · simp only [cellsRead, if_neg hb]
          rw [ih, hs]; simp

/-- Byte `i` of a frame made of a byte sequence is byte `i` of the sequence (20_memory.md R50). -/
theorem Memory.byteAt_ofBytes (bs : List Byte) (i : Nat) : (Memory.ofBytes bs).byteAt i = bs.getD i 0 := by
  exact cellsRead_ofBytes i bs 0 (Nat.zero_le _)

@[simp] theorem Memory.bytes_length (m : Memory) : m.bytes.length = m.flen := by simp [Memory.bytes]

@[simp] theorem Memory.bytes_getElem (m : Memory) (i : Nat) (h : i < m.bytes.length) :
    m.bytes[i] = m.byteAt i := by simp [Memory.bytes]

/-- A frame made of a byte sequence holds exactly that sequence: the representation loses nothing. -/
theorem Memory.bytes_ofBytes (bs : List Byte) : (Memory.ofBytes bs).bytes = bs := by
  apply List.ext_getElem
  · simp [Memory.ofBytes]
  · intro i h1 h2
    rw [Memory.bytes_getElem, Memory.byteAt_ofBytes, List.getD_eq_getElem _ _ h2]

/-- Reading a range inside the frame gives the bytes of the range and never faults
(20_memory.md R50, R52). -/
theorem Memory.readRange_ok (m : Memory) : ∀ (count start : Nat), start + count ≤ m.flen →
    m.readRange start count = .ok ((m.bytes.drop start).take count)
  | 0, _, _ => by simp [Memory.readRange]
  | count + 1, start, h => by
      have ih := Memory.readRange_ok m count (start + 1) (by omega)
      have hlt : start < m.bytes.length := by simp; omega
      simp only [Memory.readRange, Memory.readByte, if_pos (show start < m.flen by omega), ih]
      rw [List.drop_eq_getElem_cons hlt, List.take_succ_cons, Memory.bytes_getElem]

end Sys2Proof.Machine
end

