-- ==== Sys2Proof/Laws/PerInstr.lean ====
section
/-!
SUPPORT. The family `WordAccepted`: the word of every command passes its own opcode's test and no field it
does not use is set (30_encoding.md R72, R81), one lemma per constructor.
-/

namespace Sys2Proof.Laws.WordAccepted

/-- The command's word passes the MASK and MATCH test of its opcode (30_encoding.md R72). -/
def Statement (i : Instr) : Prop := i.opcode.accepts (encode i) = true

theorem reqReset : Statement .reqReset := by
  unfold Statement; decide

theorem reqModemCtrl (dtr rts : BitVec 2) : Statement (.reqModemCtrl dtr rts) := by
  unfold Statement; revert dtr rts; decide

theorem reqFlowCtrl (flow : BitVec 3) : Statement (.reqFlowCtrl flow) := by
  unfold Statement; revert flow; decide

theorem reqSetBaud (fam : BitVec 2) : Statement (.reqSetBaud fam) := by
  unfold Statement; revert fam; decide

/-- The line fields leave every bit of their MASK as MATCH has it. -/
theorem lineFields_masked (c : BitVec 8) (dbits : BitVec 4) (par : BitVec 3) (stop : BitVec 2)
    (brk : BitVec 1) :
    ({ opc := c, dbits := dbits, par := par, stop := stop, brk := brk } : CmdFields).toWord
      &&& 0xFFF003FF = c.zeroExtend 32 := by
  apply BitVec.eq_of_getLsbD_eq
  intro n hn
  simp only [CmdFields.toWord, BitVec.getLsbD_and, BitVec.getLsbD_append, BitVec.truncate_eq_setWidth,
    BitVec.getLsbD_setWidth]
  interval_cases n <;> simp

theorem reqSetLine (dbits : BitVec 4) (par : BitVec 3) (stop : BitVec 2) (brk : BitVec 1) :
    Statement (.reqSetLine dbits par stop brk) :=
  beq_iff_eq.mpr (lineFields_masked _ dbits par stop brk)

theorem reqPollStatus : Statement .reqPollStatus := by
  unfold Statement; decide

theorem reqConfigure (fam : BitVec 2) (dbits : BitVec 4) (par : BitVec 3) (stop : BitVec 2)
    (brk : BitVec 1) (flow : BitVec 3) (dtr rts : BitVec 2) :
    Statement (.reqConfigure fam dbits par stop brk flow dtr rts) := by
  refine beq_iff_eq.mpr (BitVec.eq_of_getLsbD_eq ?_)
  intro n hn
  simp only [encode, Instr.fields, CmdFields.toWord, BitVec.getLsbD_and, BitVec.getLsbD_append,
    Opcode.matchWord, Instr.opcode, Opcode.mask, Opcode.code, BitVec.truncate_eq_setWidth,
    BitVec.getLsbD_setWidth]
  interval_cases n <;> simp

theorem encLine (dbits : BitVec 4) (par : BitVec 3) (stop : BitVec 2) (brk : BitVec 1) :
    Statement (.encLine dbits par stop brk) :=
  beq_iff_eq.mpr (lineFields_masked _ dbits par stop brk)

theorem encBaud (fam : BitVec 2) : Statement (.encBaud fam) := by
  unfold Statement; revert fam; decide

theorem stripFrame : Statement .stripFrame := by
  unfold Statement; decide

end Sys2Proof.Laws.WordAccepted
end

