-- ==== Sys2Proof/Tests/Slice0.lean ====
section
/-!
SUPPORT. Tests: words written out from the encoding table, the legality checks, one step per command on the
vectors of 95_test_vectors.md, and for every statement with hypotheses a concrete case that meets them.
-/

namespace Sys2Proof.Tests

open Sys2Proof Sys2Proof.Machine

/-- A transaction of agent 7. -/
def txOf (cmd baud : Nat) (frame : List Byte := []) (nread : Nat := 0) : Transaction :=
  { agent := 7, cmd := BitVec.ofNat 32 cmd, baud := BitVec.ofNat 32 baud, frame := Memory.ofBytes frame,
    nread := BitVec.ofNat 16 nread }

/-- A block with PORT_INDEX 1 and MAX_PACKET 64 and one transaction presented. -/
def blockWith (tx : Transaction) : State :=
  { portIndex := 1, maxPacket := 64, presented := [tx], completed := [] }

/-- The response of one step. -/
def responseOf (tx : Transaction) : Option Response :=
  match step (blockWith tx) with
  | .next s => some s.lastResponse
  | _ => none

/-! ### Decoding: bits 31..27 RSV, 26..25 RTS, 24..23 DTR, 22..20 FLOW, 19 BRK, 18..17 STOP, 16..14 PAR,
13..10 DBITS, 9..8 FAM, 7..0 OPC (30_encoding.md R70) -/

theorem test_decode_reqReset : decode 0b00000_00_00_000_0_00_000_0000_00_00000000#32 = .ok .reqReset := by
  decide
theorem test_decode_reqModemCtrl :
    decode 0b00000_10_11_000_0_00_000_0000_00_00000001#32 = .ok (.reqModemCtrl 3 2) := by decide
theorem test_decode_reqFlowCtrl :
    decode 0b00000_00_00_100_0_00_000_0000_00_00000010#32 = .ok (.reqFlowCtrl 4) := by decide
theorem test_decode_reqSetBaud :
    decode 0b00000_00_00_000_0_00_000_0000_10_00000011#32 = .ok (.reqSetBaud 2) := by decide
theorem test_decode_reqSetLine :
    decode 0b00000_00_00_000_1_10_011_0111_00_00000100#32 = .ok (.reqSetLine 7 3 2 1) := by decide
theorem test_decode_reqPollStatus :
    decode 0b00000_00_00_000_0_00_000_0000_00_00000101#32 = .ok .reqPollStatus := by decide
theorem test_decode_reqConfigure :
    decode 0b00000_10_11_100_1_01_010_0111_01_00000110#32 = .ok (.reqConfigure 1 7 2 1 1 4 3 2) := by decide
theorem test_decode_encLine :
    decode 0b00000_00_00_000_1_01_100_1000_00_00010000#32 = .ok (.encLine 8 4 1 1) := by decide
theorem test_decode_encBaud :
    decode 0b00000_00_00_000_0_00_000_0000_01_00010011#32 = .ok (.encBaud 1) := by decide
theorem test_decode_stripFrame :
    decode 0b00000_00_00_000_0_00_000_0000_00_00100000#32 = .ok .stripFrame := by decide
/-- An illegal field value decodes (30_encoding.md R83). -/
theorem test_decode_illegal_field_value : decode 0x00016010#32 = .ok (.encLine 8 5 0 0) := by decide
theorem test_decode_unassigned : decode 0x00000012#32 = .error (.unassignedOpcode 0x12) := by decide
theorem test_decode_reserved_bit : decode 0x08002010#32 = .error (.unusedFieldNonZero .encLine) := by decide
theorem test_decode_unused_field : decode 0x00102010#32 = .error (.unusedFieldNonZero .encLine) := by decide
theorem test_decodeTableWord : decodeTableWord 32 0x13 = some (.encBaud 0) := by decide
theorem test_decodeTableWord_too_long : decodeTableWord 40 0x13 = none := by decide
theorem test_fetchWord_runs :
    step (State.reset.withFetchWord 32 0x05) = exec .reqPollStatus (State.reset.withFetchWord 32 0x05) := rfl

/-! ### Legality: an ill-formed term for each check -/

theorem test_wf_family_3_refused : (Instr.encBaud 3).wellFormed = false := by decide
theorem test_wf_dbits_6_refused : (Instr.encLine 6 0 0 0).wellFormed = false := by decide
theorem test_wf_dbits_9_refused : (Instr.reqSetLine 9 0 0 0).wellFormed = false := by decide
theorem test_wf_parity_5_refused : (Instr.encLine 8 5 0 0).wellFormed = false := by decide
theorem test_wf_stop_3_refused : (Instr.encLine 8 0 3 0).wellFormed = false := by decide
theorem test_wf_flow_3_refused : (Instr.reqFlowCtrl 3).wellFormed = false := by decide
theorem test_wf_flow_5_refused : (Instr.reqFlowCtrl 5).wellFormed = false := by decide
theorem test_wf_selector_1_refused : (Instr.reqModemCtrl 1 3).wellFormed = false := by decide
theorem test_wf_nothing_selected_refused : (Instr.reqModemCtrl 0 0).wellFormed = false := by decide
theorem test_wf_configure_keeps_both : (Instr.reqConfigure 1 8 0 0 0 1 0 0).wellFormed = true := by decide

/-! ### One step per command: vectors of 95_test_vectors.md -/

/-- Q1. -/
theorem test_reqReset : responseOf (txOf 0x00000000 0) =
    some (okRequests [⟨.out, 0x00, 0x0000, 0x0000, 0⟩]) := by decide
/-- Q11. -/
theorem test_reqModemCtrl : responseOf (txOf 0x05800001 0) =
    some (okRequests [⟨.out, 0x01, 0x0301, 0x0000, 0⟩]) := by decide
/-- Q13. -/
theorem test_reqModemCtrl_nothing : responseOf (txOf 0x00000001 0) = some (statusOnly 0x01) := by decide
/-- Q20. -/
theorem test_reqFlowCtrl : responseOf (txOf 0x00400002 0) =
    some (okRequests [⟨.out, 0x02, 0x0400, 0x0000, 0⟩]) := by decide
/-- E19: the last H rate on the 48 MHz clock, PORT_INDEX 1. -/
theorem test_reqSetBaud_h732 : responseOf (txOf 0x00000203 732) =
    some (okBaud ⟨732, 732, 0x1002, 0x0101⟩ [⟨.out, 0x03, 0x1002, 0x0101, 0⟩]) := by decide
/-- E9. -/
theorem test_reqSetBaud_am_2000000 : responseOf (txOf 0x00000003 2000000) = some (statusOnly 0x02) := by
  decide
/-- LR3. -/
theorem test_reqSetLine : responseOf (txOf 0x00025C04 0) =
    some (okRequests [⟨.out, 0x04, 0x0907, 0x0000, 0⟩]) := by decide
/-- Q3. -/
theorem test_reqPollStatus : responseOf (txOf 0x00000005 0) =
    some (okRequests [⟨.in, 0x05, 0x0000, 0x0000, 2⟩]) := by decide
/-- K3, PORT_INDEX 1. -/
theorem test_reqConfigure_h : responseOf (txOf 0x0180A206 921600) =
    some (okBaud ⟨921600, 923077, 0x000D, 0x0201⟩
      [⟨.out, 0x04, 0x0208, 0x0000, 0⟩, ⟨.out, 0x03, 0x000D, 0x0201, 0⟩,
        ⟨.out, 0x02, 0x0000, 0x0000, 0⟩, ⟨.out, 0x01, 0x0101, 0x0000, 0⟩]) := by decide
/-- K6: an illegal argument comes before the tolerance. -/
theorem test_reqConfigure_priority : responseOf (txOf 0x0001E006 2000000) = some (statusOnly 0x01) := by
  decide
/-- L6. -/
theorem test_encLine : responseOf (txOf 0x000CA010 0) = some (okLineValue 0x4A08) := by decide
/-- L10. -/
theorem test_encLine_dbits_0 : responseOf (txOf 0x00000010 0) = some (statusOnly 0x01) := by decide
/-- A9: a tie keeps candidate 0. -/
theorem test_encBaud_am_tie : responseOf (txOf 0x00000013 2511) =
    some (okBaud ⟨2511, 2512, 0x44AA, 0x0000⟩ []) := by decide
/-- E3: the most negative BAUD. -/
theorem test_encBaud_negative : responseOf (txOf 0x00000213 0x80000000) = some (statusOnly 0x01) := by decide
/-- W8. -/
theorem test_stripFrame : responseOf (txOf 0x20 0
      [0x01, 0x60, 0x41, 0x42, 0x43, 0x44, 0x45, 0x46, 0x47, 0x48] 10) =
    some (payloadResponse 0x00 [0x41, 0x42, 0x43, 0x44, 0x45, 0x46, 0x47, 0x48]) := by decide
/-- F4. -/
theorem test_stripFrame_short : responseOf (txOf 0x20 0 [0x01, 0x60, 0x41] 1) =
    some (payloadResponse 0x04 []) := by decide
/-- X14. -/
theorem test_illegal_word : responseOf (txOf 0xFFFFFFFF 0) = some (statusOnly 0x03) := by decide

/-! ### Assembler and host side -/

/-- K4's line and word. -/
theorem test_assemble_config :
    (assembleLine
        "req.config am, 9600, 7, odd, 2, break, xonxoff, dtr=keep, rts=low".toList).map
      (fun c => (encode c.instr, c.baud)) = some (0x044C5C06#32, 9600#32) := by decide
/-- E2's line; keywords are case-insensitive (30_encoding.md R85). -/
theorem test_assemble_negative_rate :
    assembleLine "ENC.baud bm, -1".toList = some { instr := .encBaud 1, baud := 0xFFFFFFFF } := by decide
theorem test_assemble_strip :
    assembleLine "strip 2, [0x31,0x60]".toList =
      some { instr := .stripFrame, frame := [0x31, 0x60], nread := 2 } := by decide
/-- Poll, as the setup packet of 20_memory.md R53 (informative). -/
theorem test_setupPacket : setupPacket pollRequest = [0xC0, 0x05, 0, 0, 0, 0, 2, 0] := by decide
/-- Two baud commands of different families for one device break a host's duty (70_reset_and_hazards.md R280). -/
theorem test_familyConsistent : familyConsistent [txOf 0x13 1, txOf 0x05 0, txOf 0x003 1] = true ∧
    familyConsistent [txOf 0x13 1, txOf 0x103 1] = false := by decide
/-- Program 4 of 95_test_vectors.md: a 5-byte transfer over a 14-byte buffer. -/
theorem test_overwrite :
    ((Memory.ofBytes [0x31, 0x60, 0x48, 0x65, 0x6C, 0x6C]).overwrite 0 [0x31, 0x60, 0x4F]).map Memory.bytes =
      .ok [0x31, 0x60, 0x4F, 0x65, 0x6C, 0x6C] := by decide

/-! ### Hypotheses that are met -/

/-- A block with an earlier error response. -/
def blockAfterError (tx : Transaction) : State :=
  { blockWith tx with completed := [⟨txOf 0x07 0, statusOnly 0x03⟩] }

/-- A host whose transport accepts one submission and fails the next. -/
def hostOf (pending : List ControlRequest) (transport : List (Option TransportError)) : HostAgent :=
  { program := [], pending := pending, submitted := [], transport := transport, failure := none,
    records := [] }

theorem witness_EncodeOfDecodeIsTheWord : decode 0x00002010#32 = .ok (.encLine 8 0 0 0) := by decide

theorem witness_DecodedFieldsAreTheTableBits :
    (0x044C5C06#32 &&& 0xF80000FF#32 = 0x06#32 ∧
        decode 0x044C5C06#32 = .ok (.reqConfigure 0 7 1 2 1 4 0 2)) ∧
      (0x05800001#32 &&& 0xF87FFFFF#32 = 0x01#32 ∧ decode 0x05800001#32 = .ok (.reqModemCtrl 3 2)) ∧
      (0x000CA010#32 &&& 0xFFF003FF#32 = 0x10#32 ∧ decode 0x000CA010#32 = .ok (.encLine 8 2 2 1)) := by decide

theorem witness_StepRunsTheDecodedCommand :
    (blockWith (txOf 0x20 0)).presented = [txOf 0x20 0] ∧ decode (txOf 0x20 0).cmd = .ok .stripFrame := by
  decide

theorem witness_IllegalWordsAnswerIllegalCommand_opcode :
    (blockWith (txOf 0x21 0)).presented = [txOf 0x21 0] ∧
      ∀ op : Opcode, (txOf 0x21 0).cmd.extractLsb' 0 8 ≠ op.code :=
  ⟨rfl, fun op => by cases op <;> decide⟩

theorem witness_IllegalWordsAnswerIllegalCommand_field :
    (blockWith (txOf 0x120 0)).presented = [txOf 0x120 0] ∧
      ∃ op : Opcode, (txOf 0x120 0).cmd.extractLsb' 0 8 = op.code ∧
        (txOf 0x120 0).cmd &&& op.mask ≠ op.matchWord :=
  ⟨rfl, .stripFrame, by decide, by decide⟩

theorem witness_StepWithoutTransactionIsIdle : State.reset.presented = [] := rfl

theorem witness_StepChangesOnlyTheAnsweredTransaction :
    (∃ t, step (blockAfterError (txOf 0x20 0 [1, 2, 3] 3)) = .next t) ∧
      (∃ t, step State.reset = .next t) ∧
      (blockAfterError (txOf 0x20 0 [1, 2, 3] 3)).presented = [txOf 0x20 0 [1, 2, 3] 3] :=
  ⟨⟨_, rfl⟩, ⟨_, rfl⟩, rfl⟩

/-- A state and a transaction whose OPC is the given one. -/
def PresentedWith (cmd baud : Nat) (opc : BitVec 8) : Prop :=
  (blockWith (txOf cmd baud)).presented = [txOf cmd baud] ∧
    (txOf cmd baud).cmd.extractLsb' 0 8 = opc

theorem witness_ReqResetFollowsItsRule :
    PresentedWith 0x00000000 0 0x00 ∧ PresentedWith 0x80000000 0 0x00 := ⟨⟨rfl, rfl⟩, rfl, rfl⟩

theorem witness_ReqModemCtrlFollowsItsRule :
    PresentedWith 0x05800001 0 0x01 ∧ PresentedWith 0x00800001 0 0x01 ∧ PresentedWith 0x02000001 0 0x01 ∧
      PresentedWith 0x00000001 0 0x01 ∧ PresentedWith 0x08000001 0 0x01 :=
  ⟨⟨rfl, rfl⟩, ⟨rfl, rfl⟩, ⟨rfl, rfl⟩, ⟨rfl, rfl⟩, rfl, rfl⟩

theorem witness_ReqFlowCtrlFollowsItsRule :
    PresentedWith 0x00400002 0 0x02 ∧ PresentedWith 0x00300002 0 0x02 ∧ PresentedWith 0x00080002 0 0x02 :=
  ⟨⟨rfl, rfl⟩, ⟨rfl, rfl⟩, rfl, rfl⟩

/-- The four bands: within tolerance, out of it, a rate that is not positive, FAM 3. -/
theorem witness_ReqSetBaudFollowsItsRule :
    PresentedWith 0x003 178 0x03 ∧ PresentedWith 0x003 177 0x03 ∧ PresentedWith 0x003 0x80000000 0x03 ∧
      PresentedWith 0x303 178 0x03 :=
  ⟨⟨rfl, rfl⟩, ⟨rfl, rfl⟩, ⟨rfl, rfl⟩, rfl, rfl⟩

theorem witness_ReqSetLineFollowsItsRule :
    PresentedWith 0x000D2004 0 0x04 ∧ PresentedWith 0x00001804 0 0x04 ∧ PresentedWith 0x00016004 0 0x04 ∧
      PresentedWith 0x00062004 0 0x04 :=
  ⟨⟨rfl, rfl⟩, ⟨rfl, rfl⟩, ⟨rfl, rfl⟩, rfl, rfl⟩

theorem witness_ReqPollStatusFollowsItsRule :
    PresentedWith 0x00000005 0 0x05 ∧ PresentedWith 0x00000105 0 0x05 := ⟨⟨rfl, rfl⟩, rfl, rfl⟩

theorem witness_ReqConfigureFollowsItsRule :
    PresentedWith 0x07902106 115200 0x06 ∧ PresentedWith 0x00102106 115200 0x06 ∧
      PresentedWith 0x00002006 2000000 0x06 ∧ PresentedWith 0x0001E006 0 0x06 :=
  ⟨⟨rfl, rfl⟩, ⟨rfl, rfl⟩, ⟨rfl, rfl⟩, rfl, rfl⟩

theorem witness_EncLineFollowsItsRule :
    PresentedWith 0x00001C10 0 0x10 ∧ PresentedWith 0x000D2010 0 0x10 ∧ PresentedWith 0x00000010 0 0x10 :=
  ⟨⟨rfl, rfl⟩, ⟨rfl, rfl⟩, rfl, rfl⟩

theorem witness_EncBaudFollowsItsRule :
    PresentedWith 0x013 1 0x13 ∧ PresentedWith 0x213 0x7FFFFFFF 0x13 ∧ PresentedWith 0x113 0 0x13 ∧
      PresentedWith 0x313 1 0x13 :=
  ⟨⟨rfl, rfl⟩, ⟨rfl, rfl⟩, ⟨rfl, rfl⟩, rfl, rfl⟩

theorem witness_StripFrameFollowsItsRule :
    PresentedWith 0x020 0 0x20 ∧ PresentedWith 0x120 0 0x20 := ⟨⟨rfl, rfl⟩, rfl, rfl⟩

theorem witness_ResetAndPollComplete : (blockWith (txOf 0 0)).presented = [txOf 0 0] := rfl

theorem witness_ModemAndFlowControlComplete :
    (blockWith (txOf 0 0)).presented = [txOf 0 0] ∧
      (selLegal 0 && selLegal 2 && someLineSelected 0 2 && selLegal 3 && someLineSelected 3 3) = true ∧
      flowLegal 0 = true ∧ flowLegal 4 = true := by decide

theorem witness_LineCommandsComplete :
    (blockWith (txOf 0 0)).presented = [txOf 0 0] ∧ lineLegal 7 0 0 = true ∧ lineLegal 8 4 2 = true := by
  decide

theorem witness_EncBaudFailsOnlyOnInvalidArguments :
    (blockWith (txOf 0x213 0x7FFFFFFF)).presented = [txOf 0x213 0x7FFFFFFF] ∧ famLegal 2 = true ∧
      0 < (txOf 0x213 0x7FFFFFFF).baud.toInt ∧ 0 < (txOf 0x213 1).baud.toInt ∧
      (txOf 0x213 0).baud.toInt ≤ 0 := by decide

theorem witness_BaudRequestsCompleteWithinTolerance :
    (blockWith (txOf 0x003 178)).presented = [txOf 0x003 178] ∧ famLegal 0 = true ∧
      0 < (txOf 0x003 178).baud.toInt ∧ ¬ rateOutOfTolerance (txOf 0x003 178) 0 ∧
      rateOutOfTolerance (txOf 0x003 177) 0 ∧ 0 < (txOf 0x003 177).baud.toInt ∧
      (Instr.reqConfigure 0 7 4 2 1 4 0 0).wellFormed = true := by
  refine ⟨rfl, by decide, by decide, ?_, ?_, by decide, by decide⟩
  · unfold rateOutOfTolerance; decide
  · unfold rateOutOfTolerance; decide

theorem witness_StripFrameCompletesOnAcceptedFrames :
    (blockWith (txOf 0x20 0 [1, 2] 2)).presented = [txOf 0x20 0 [1, 2] 2] ∧
      (txOf 0x20 0 [1, 2] 2).frame.flen ≤ (blockWith (txOf 0x20 0 [1, 2] 2)).maxPacket.toNat ∧
      (txOf 0x20 0 [1, 2] 2).nread.toNat ≤ (txOf 0x20 0 [1, 2] 2).frame.flen ∧
      (txOf 0x20 0 [1, 2] 1).nread.toNat ≤ (txOf 0x20 0 [1, 2] 1).frame.flen := by decide

theorem witness_ConfigureIsTheConcatenationOfFourCommands :
    ∃ t, exec (.reqConfigure 1 8 0 0 0 1 3 3) (blockWith (txOf 0x07902106 115200)) = .next t ∧
      t.lastResponse.status = some 0x00 := ⟨_, rfl, by decide⟩

/-- The rate 1, which the clamps of both paths reach. -/
theorem witness_AmPathTakesTheNearestCandidate : 0 < 1 ∧ encodedRate 1 .am = ⟨0x3FFF, 183⟩ := by decide
/-- A14 of 95_test_vectors.md: candidate 1 survives, with a fraction of 0. -/
theorem witness_AmDivisorsAreSupported : 0 < 800000 ∧ (amSurvivor 800000).t = 32 := by decide
/-- The edges of the fast paths and of the clock switch. -/
theorem witness_GeneralPathFollowsItsRules :
    encodedRate 3000000 .bm = ⟨0, 3000000⟩ ∧ encodedRate 2999999 .bm = ⟨1, 2000000⟩ ∧
      encodedRate 1999999 .bm = ⟨2, 1500000⟩ ∧ encodedRate 1499999 .bm = ⟨2, 1500000⟩ ∧
      encodedRate 732 .h = ⟨0x11002, 732⟩ ∧ encodedRate 733 .h = ⟨0x2FFF3, 733⟩ ∧
      encodedRate 12000000 .h = ⟨0x20000, 12000000⟩ ∧ encodedRate 5999999 .h = ⟨0x20002, 6000000⟩ := by decide
theorem witness_DivisorSplitsIntoValueAndIndex :
    0 < 14400 ∧ baudEncode 14400 .h 2 = ⟨14400, 14399, 0x0341, 0x0302⟩ := by decide
theorem witness_HIndexShowsTheClockSwitch :
    0 < 732 ∧ (baudEncode 732 .h 1).index = 0x0101 ∧ (baudEncode 733 .h 1).index = 0x0201 := by decide
theorem witness_EncodedRatesFitTheirFields : 0 < 2147483647 ∧ encodedRate 2147483647 .h = ⟨0x20000, 12000000⟩ := by
  decide

theorem witness_ToleranceIsCheckedWhereTheRateIsConsumed :
    ∃ te ts tc, exec (.encBaud 0) (blockWith (txOf 0x003 177)) = .next te ∧
      exec (.reqSetBaud 0) (blockWith (txOf 0x003 177)) = .next ts ∧
      exec (.reqConfigure 0 8 0 0 0 0 0 0) (blockWith (txOf 0x003 177)) = .next tc ∧
      tc.lastResponse.status = some 0x02 := ⟨_, _, _, rfl, rfl, rfl, by decide⟩

theorem witness_EveryRequestHasItsTableForm :
    ∃ t, exec .reqPollStatus (blockWith (txOf 0x05 0)) = .next t ∧ t.lastResponse.reqs ≠ [] :=
  ⟨_, rfl, by decide⟩

/-- An error, and SHORT_FRAME, which is not one. -/
theorem witness_ErrorsLeaveNothingButTheStatus :
    (∃ t, step (blockWith (txOf 0x07 0)) = .next t ∧ t.lastResponse.status = some 0x03) ∧
      errorCode 0x03 ∧
      ∃ t, step (blockWith (txOf 0x20 0)) = .next t ∧ t.lastResponse.status = some 0x04 :=
  ⟨⟨_, rfl, by decide⟩, .inr (.inr rfl), _, rfl, by decide⟩

theorem witness_StatusesComeOnlyFromTheirCommands :
    (blockWith (txOf 0x20 0)).presented = [txOf 0x20 0] ∧ ∃ t, step (blockWith (txOf 0x20 0)) = .next t :=
  ⟨rfl, _, rfl⟩

theorem witness_StatusIsTheCauseOfHighestPriority :
    (blockWith (txOf 0x0001E006 2000000)).presented = [txOf 0x0001E006 2000000] ∧
      ∃ t, step (blockWith (txOf 0x0001E006 2000000)) = .next t := ⟨rfl, _, rfl⟩

/-- A record whose fields hold no value, one whose fields hold values, and a command that writes a field. -/
theorem witness_UnwrittenFieldsHoldNoValueAndFaultOnRead :
    (∃ t, exec (.encLine 8 0 0 0) (blockWith (txOf 0x2010 0)) = .next t ∧ t.lastResponse.lineValue = some 8) ∧
      (∃ t, exec (.encBaud 0) (blockWith (txOf 0x13 300)) = .next t ∧ t.lastResponse.divValue = some 0x2710) ∧
      (∃ t, exec .stripFrame (blockWith (txOf 0x20 0)) = .next t ∧ t.lastResponse.payload = some []) ∧
      (∃ t, exec (.encBaud 3) (blockWith (txOf 0x313 300)) = .next t ∧ t.lastResponse.status = some 0x01) ∧
      (Response.noValue.status = none ∧ Response.noValue.lineValue = none ∧ Response.noValue.divValue = none ∧
      Response.noValue.divIndex = none ∧ Response.noValue.achieved = none ∧ Response.noValue.payload = none ∧
      Response.noValue.payloadLen = none) ∧
      (okLineValue 8).lineValue = some 8 ∧ (okBaud ⟨1, 183, 0x3FFF, 0⟩ []).divValue = some 0x3FFF ∧
      (okBaud ⟨1, 183, 0x3FFF, 0⟩ []).achieved = some 183 ∧ (payloadResponse 0 [5]).payload = some [5] :=
  ⟨⟨_, rfl, by decide⟩, ⟨_, rfl, by decide⟩, ⟨_, rfl, by decide⟩, ⟨_, rfl, by decide⟩, by decide, by decide,
    by decide, by decide, by decide⟩

theorem witness_FrameReadsAreTheHostsBytes :
    2 < [(1 : Byte), 0, 3].length ∧ [(1 : Byte), 0, 3].length ≤ 3 := by decide

theorem witness_PayloadIgnoresHeaderAndStaleBytes :
    let a := txOf 0x20 0 [0x01, 0x60, 0x41, 0x42] 3
    let b := txOf 0x20 9 [0xFF, 0xFF, 0x41, 0x00, 0x07] 3
    (blockWith a).presented = [a] ∧ (blockWith b).presented = [b] ∧ a.nread = b.nread ∧
      a.frame.flen ≤ 64 ∧ a.nread.toNat ≤ a.frame.flen ∧ b.frame.flen ≤ 64 ∧ b.nread.toNat ≤ b.frame.flen ∧
      (∀ i, 2 ≤ i → i < a.nread.toNat → a.frame.byteAt i = b.frame.byteAt i) ∧
      (∃ t, exec .stripFrame (blockWith a) = .next t) ∧ ∃ t, exec .stripFrame (blockWith b) = .next t := by
  refine ⟨rfl, rfl, rfl, by decide, by decide, by decide, by decide, ?_, ⟨_, rfl⟩, _, rfl⟩
  intro i h2 h3
  have h3' : i < 3 := h3
  interval_cases i
  decide

theorem witness_PayloadLengthIsTheCountLessTheHeader :
    legalInstance (blockWith (txOf 0x20 0 [1, 2, 3] 3)) ∧
      (txOf 0x20 0 [1, 2, 3] 3).frame.flen ≤ 64 ∧
      (txOf 0x20 0 [1, 2, 3] 3).nread.toNat ≤ (txOf 0x20 0 [1, 2, 3] 3).frame.flen ∧
      ∃ t, exec .stripFrame (blockWith (txOf 0x20 0 [1, 2, 3] 3)) = .next t :=
  ⟨by unfold legalInstance; decide, by decide, by decide, _, rfl⟩

theorem witness_EveryStepKeepsTheMachineInvariant :
    machineInvariant (blockAfterError (txOf 0x20 0 [1, 2, 3] 3)) ∧
      ∃ t, step (blockAfterError (txOf 0x20 0 [1, 2, 3] 3)) = .next t := by
  refine ⟨⟨by unfold legalInstance; decide, by decide, ?_⟩, _, rfl⟩
  intro e he
  obtain rfl : e = ⟨txOf 0x07 0, statusOnly 0x03⟩ := by simpa [blockAfterError, blockWith] using he
  refine ⟨⟨0x03, rfl, by decide, fun _ => rfl⟩, by decide, ?_, ?_, ?_, ?_⟩ <;> intro x hx <;> simp [statusOnly] at hx

theorem witness_ResponsesDependOnOwnInputsOnly :
    let a := blockWith (txOf 0x05 0)
    let b := { blockAfterError (txOf 0x05 0) with presented := [{ txOf 0x05 0 with agent := 9 }, txOf 0x07 1] }
    a.portIndex = b.portIndex ∧ a.maxPacket = b.maxPacket ∧ a.presented = [txOf 0x05 0] ∧
      b.presented = [{ txOf 0x05 0 with agent := 9 }, txOf 0x07 1] ∧
      (∃ t, step a = .next t) ∧ ∃ t, step b = .next t :=
  ⟨rfl, rfl, rfl, rfl, ⟨_, rfl⟩, _, rfl⟩

theorem witness_IgnoredInputsHaveNoEffect :
    let a := txOf 0x05 1 [1, 2] 2
    let b := txOf 0x05 2 [3] 7
    (blockWith a).presented = [a] ∧ (blockWith b).presented = [b] ∧ (baudField .reqPollStatus).isSome = false ∧
      (∃ t, exec .reqPollStatus (blockWith a) = .next t) ∧ ∃ t, exec .reqPollStatus (blockWith b) = .next t :=
  ⟨rfl, rfl, rfl, ⟨_, rfl⟩, _, rfl⟩

theorem witness_SubmissionStopsAtTheFirstFailure :
    (hostOf [resetRequest, pollRequest] [none, some ⟨3⟩]).pending = [resetRequest] ++ pollRequest :: [] ∧
      (hostOf [resetRequest, pollRequest] [none, some ⟨3⟩]).transport =
        List.replicate [resetRequest].length none ++ some ⟨3⟩ :: [] ∧
      (hostOf [resetRequest, pollRequest] [none, none]).transport =
        List.replicate [resetRequest, pollRequest].length none ++ [] := by decide

theorem witness_ConfiguredOnlyAfterEverySubmission :
    (0x00102106#32).extractLsb' 0 8 = 0x06#8 ∧ (okRequests [resetRequest, pollRequest]).status = some 0x00 ∧
      (okRequests [resetRequest, pollRequest]).reqs ≠ [] ∧
      (hostOf [] [none, none]).transport =
        List.replicate (okRequests [resetRequest, pollRequest]).reqs.length none ++ [] ∧
      1 < (okRequests [resetRequest, pollRequest]).reqs.length ∧ (hostOf [] [none, some ⟨3⟩]).records = [] ∧
      (hostOf [] [none, some ⟨3⟩]).transport = List.replicate 1 none ++ some ⟨3⟩ :: [] := by decide

theorem witness_ConfiguredOnlyAfterEverySubmission_transition :
    (hostOf [] [none]).session = .unconfigured ∧
      (HostAgent.submitOne^[1] ((hostOf [] [none]).receive 0x06 (okRequests [pollRequest]))).session
        = .configured := by decide

theorem witness_ThreeSubmittedCommandsConfigureTheSession :
    [(0x00000103#32).extractLsb' 0 8, (0x00000002#32).extractLsb' 0 8, (0x00002004#32).extractLsb' 0 8].Perm
        [0x04#8, 0x03#8, 0x02#8] ∧
      (okRequests [pollRequest]).status = some 0x00 ∧ (okRequests [pollRequest]).reqs ≠ [] ∧
      (hostOf [] [none, none, none]).transport = List.replicate (1 + 1 + 1) none ++ [] ∧
      (hostOf [] [none, none, none]).records = [] := by decide

/-- A program of two commands: after the second response the host has one request left to submit, and one step
later the program has ended, although the submission failed; a failure at the first command leaves it unended
(60_exceptions.md R247, R249). -/
theorem witness_EndedProgramsHaveEveryResponse :
    let s : State := { blockWith (txOf 0 0) with presented := [] }
    let ended (transport : List (Option TransportError)) (k : Nat) : Option (Bool × Nat) :=
      match System.run k ⟨s, HostAgent.start [txOf 0 0, txOf 5 0] transport⟩ with
      | .next y => some (y.host.ended, y.block.completed.length)
      | _ => none
    s.presented = [] ∧ ended [none, some ⟨3⟩] 3 = some (false, 2) ∧ ended [none, some ⟨3⟩] 4 = some (true, 2) ∧
      ended [some ⟨3⟩] 9 = some (false, 1) := by decide

theorem witness_SubmissionsNeverReachTheBlock :
    (State.reset.presented = []) ∧ (hostOf [resetRequest] [none]).pending ≠ [] := ⟨rfl, by decide⟩

end Sys2Proof.Tests
end

section
/-!
# What one command answers (10_state.md section 3)

Every command, and every step that has a transaction to answer, is `answer` of a function of the two
parameters and the transaction. The first part names that function and ties it to `exec` and `step`; the
second lists the forms its value can take; the third settles the statements on the response record.
-/

namespace Sys2Proof.Machine

/-! ### The response as a function of the parameters and the transaction -/

/-- The response of a decoded command to the transaction in progress; `exec_eq_answer_commandResponse` ties it
to the model. -/
def commandResponse (portIndex : BitVec 8) (maxPacket : Half) (tx : Transaction) : Instr → Except Fault Response
  | .reqReset => .ok reqResetResponse
  | .reqModemCtrl dtr rts => .ok (reqModemCtrlResponse dtr rts)
  | .reqFlowCtrl flow => .ok (reqFlowCtrlResponse flow)
  | .reqSetBaud fam => .ok (reqSetBaudResponse portIndex fam tx.baud)
  | .reqSetLine dbits par stop brk => .ok (reqSetLineResponse dbits par stop brk)
  | .reqPollStatus => .ok reqPollStatusResponse
  | .reqConfigure fam dbits par stop brk flow dtr rts =>
      .ok (reqConfigureResponse portIndex fam dbits par stop brk flow dtr rts tx.baud)
  | .encLine dbits par stop brk => .ok (encLineResponse dbits par stop brk)
  | .encBaud fam => .ok (encBaudResponse portIndex fam tx.baud)
  | .stripFrame => stripFrameResponse maxPacket tx.frame tx.nread

/-- The response of the block to a transaction, whatever its word (30_encoding.md R72, 60_exceptions.md R231);
`step_eq_answer_transactionResponse` ties it to the model. -/
def transactionResponse (portIndex : BitVec 8) (maxPacket : Half) (tx : Transaction) : Except Fault Response :=
  match decode tx.cmd with
  | .ok i => commandResponse portIndex maxPacket tx i
  | .error _ => .ok (raise .illegalCommand)

/-- Every command answers its `commandResponse`. -/
theorem exec_eq_answer_commandResponse (i : Instr) (s : State) :
    exec i s = answer (fun tx => commandResponse s.portIndex s.maxPacket tx i) s := by
  cases i with
  | reqReset => exact exec_reqReset s
  | reqModemCtrl dtr rts => exact exec_reqModemCtrl s dtr rts
  | reqFlowCtrl flow => exact exec_reqFlowCtrl s flow
  | reqSetBaud fam => exact exec_reqSetBaud s fam
  | reqSetLine dbits par stop brk => exact exec_reqSetLine s dbits par stop brk
  | reqPollStatus => exact exec_reqPollStatus s
  | reqConfigure fam dbits par stop brk flow dtr rts =>
      exact exec_reqConfigure s fam dbits par stop brk flow dtr rts
  | encLine dbits par stop brk => exact exec_encLine s dbits par stop brk
  | encBaud fam => exact exec_encBaud s fam
  | stripFrame => exact exec_stripFrame s

/-- `answer` looks at its body at the presented transaction only. -/
theorem answer_congr {body body' : Transaction → Except Fault Response} {s : State} {tx : Transaction}
    {rest : List Transaction} (hp : s.presented = tx :: rest) (h : body tx = body' tx) :
    answer body s = answer body' s := by
  simp [answer, hp, h]

/-- A step with a transaction to answer answers its `transactionResponse`. -/
theorem step_eq_answer_transactionResponse {s : State} {tx : Transaction} {rest : List Transaction}
    (hp : s.presented = tx :: rest) :
    step s = answer (transactionResponse s.portIndex s.maxPacket) s := by
  obtain ⟨hnil, _⟩ | ⟨tx₁, rest₁, why, hp₁, hd, hs⟩ | ⟨tx₁, rest₁, i, hp₁, hd, hs⟩ := step_cases s
  · rw [hp] at hnil
    cases hnil
  · rw [hs]
    exact (answer_cons hp₁ (by simp [transactionResponse, hd])).symm
  · rw [hs, exec_eq_answer_commandResponse]
    exact answer_congr hp₁ (by simp [transactionResponse, hd])

/-- The response a command leaves is its `commandResponse` to the presented transaction. -/
theorem commandResponse_of_exec {i : Instr} {s t : State} (h : exec i s = .next t) :
    ∃ tx rest, s.presented = tx :: rest ∧
      commandResponse s.portIndex s.maxPacket tx i = .ok t.lastResponse := by
  rw [exec_eq_answer_commandResponse] at h
  obtain ⟨tx, rest, r, hp, hr, rfl⟩ := answer_next h
  exact ⟨tx, rest, hp, by simpa using hr⟩

/-- The response a step leaves is its `transactionResponse` to the presented transaction. -/
theorem transactionResponse_of_step {s t : State} {tx : Transaction} {rest : List Transaction}
    (hp : s.presented = tx :: rest) (h : step s = .next t) :
    transactionResponse s.portIndex s.maxPacket tx = .ok t.lastResponse := by
  rw [step_eq_answer_transactionResponse hp] at h
  obtain ⟨tx₁, rest₁, r, hp₁, hr, rfl⟩ := answer_next h
  obtain ⟨rfl, rfl⟩ := List.cons.inj (hp.symm.trans hp₁)
  simpa using hr

/-! ### The agent is not an input -/

/-- No command reads the agent tag (60_exceptions.md R243). -/
theorem commandResponse_agent (portIndex : BitVec 8) (maxPacket : Half) (tx : Transaction) (agent : Nat)
    (i : Instr) :
    commandResponse portIndex maxPacket { tx with agent := agent } i =
      commandResponse portIndex maxPacket tx i := by
  cases i <;> rfl

/-- The agent tag has no part in a response, whatever the word (60_exceptions.md R243). -/
theorem transactionResponse_agent (portIndex : BitVec 8) (maxPacket : Half) (tx : Transaction) (agent : Nat) :
    transactionResponse portIndex maxPacket { tx with agent := agent } =
      transactionResponse portIndex maxPacket tx := by
  simp only [transactionResponse, commandResponse_agent]

/-- Transactions with the same four inputs (10_state.md R24) have the same response. -/
theorem transactionResponse_congr (portIndex : BitVec 8) (maxPacket : Half) {tx tx' : Transaction}
    (hcmd : tx.cmd = tx'.cmd) (hbaud : tx.baud = tx'.baud) (hframe : tx.frame = tx'.frame)
    (hnread : tx.nread = tx'.nread) :
    transactionResponse portIndex maxPacket tx = transactionResponse portIndex maxPacket tx' := by
  have htx : tx' = { tx with agent := tx'.agent } := by rw [hcmd, hbaud, hframe, hnread]
  rw [htx]
  exact (transactionResponse_agent portIndex maxPacket tx tx'.agent).symm

/-! ### The forms of a response -/

/-- The forms the response of a command can take (10_state.md R31, R34): an error status and nothing else,
requests and no result, or the result fields its command writes. -/
inductive ResponseForm : Instr → Response → Prop where
  | raised (i : Instr) (st : Status) (h : st.isError = true) : ResponseForm i (raise st)
  | requests (i : Instr) (qs : List ControlRequest) : ResponseForm i (okRequests qs)
  | lineValue (dbits : BitVec 4) (par : BitVec 3) (stop : BitVec 2) (brk : BitVec 1) (v : Half) :
      ResponseForm (.encLine dbits par stop brk) (okLineValue v)
  | baud (i : Instr) (h : (baudField i).isSome) (b : BaudResult) (qs : List ControlRequest) :
      ResponseForm i (okBaud b qs)
  | payload (st : Status) (h : st.isError = false) (bs : List Byte) :
      ResponseForm .stripFrame (payloadResponse st.code bs)

theorem ResponseForm.withArgument {i : Instr} {α : Type} (arg : Option α) {body : α → Response}
    (h : ∀ a, ResponseForm i (body a)) : ResponseForm i (Machine.withArgument arg body) := by
  obtain ⟨_, hr⟩ | ⟨a, _, hr⟩ := withArgument_cases arg body
  · rw [hr]
    exact .raised i _ rfl
  · rw [hr]
    exact h a

theorem ResponseForm.withTolerance {i : Instr} (b : BaudResult) {body : BaudResult → Response}
    (h : ResponseForm i (body b)) : ResponseForm i (Machine.withTolerance b body) := by
  obtain ⟨_, hr⟩ | ⟨_, hr⟩ := withTolerance_cases b body
  · rw [hr]
    exact .raised i _ rfl
  · rw [hr]
    exact h

theorem reqModemCtrlResponse_form (dtr rts : BitVec 2) :
    ResponseForm (.reqModemCtrl dtr rts) (reqModemCtrlResponse dtr rts) := by
  refine .withArgument _ fun d => .withArgument _ fun r => ?_
  split
  · exact .raised _ _ rfl
  · exact .requests _ [modemRequest d r]

theorem reqConfigureResponse_form (portIndex : BitVec 8) (fam : BitVec 2) (dbits : BitVec 4) (par : BitVec 3)
    (stop : BitVec 2) (brk : BitVec 1) (flow : BitVec 3) (dtr rts : BitVec 2) (baud : Word) :
    ResponseForm (.reqConfigure fam dbits par stop brk flow dtr rts)
      (reqConfigureResponse portIndex fam dbits par stop brk flow dtr rts baud) := by
  refine .withArgument _ fun f => .withArgument _ fun b => .withArgument _ fun c => .withArgument _ fun m =>
    .withArgument _ fun d => .withArgument _ fun r => .withTolerance _ ?_
  dsimp only
  split
  · exact .baud _ rfl _ [lineRequest c, baudRequest _, flowRequest m]
  · exact .baud _ rfl _ [lineRequest c, baudRequest _, flowRequest m, modemRequest d r]

/-- A range inside the frame reads as many bytes as were asked for. -/
theorem Memory.readRange_length (m : Memory) (count start : Nat) (h : start + count ≤ m.flen) :
    ∃ bs, m.readRange start count = .ok bs ∧ bs.length = count := by
  refine ⟨_, m.readRange_ok count start h, ?_⟩
  rw [List.length_take, List.length_drop, Memory.bytes_length]
  omega

/-- STRIP_FRAME refuses its arguments or writes a payload and the payload's length (43_frame_strip.md R212 to
R214). -/
theorem stripFrameResponse_form {maxPacket : Half} {frame : Memory} {nread : Half} {r : Response}
    (h : stripFrameResponse maxPacket frame nread = .ok r) : ResponseForm .stripFrame r := by
  unfold stripFrameResponse at h
  split at h
  case isTrue => cases h; exact .raised _ _ rfl
  split at h
  case isTrue => cases h; exact .raised _ _ rfl
  split at h
  case isTrue => cases h; exact .payload .shortFrame rfl []
  rename_i hcount _
  obtain ⟨bs, hread, hlen⟩ :=
    frame.readRange_length (nreadOperand nread - headerLen) headerLen (by omega)
  rw [hread] at h
  cases h
  rw [← hlen]
  exact .payload .ok rfl bs

/-- Every response of a command has one of the forms. -/
theorem commandResponse_form {portIndex : BitVec 8} {maxPacket : Half} {tx : Transaction} {i : Instr}
    {r : Response} (h : commandResponse portIndex maxPacket tx i = .ok r) : ResponseForm i r := by
  cases i with
  | reqReset => cases h; exact .requests _ [resetRequest]
  | reqModemCtrl dtr rts => cases h; exact reqModemCtrlResponse_form dtr rts
  | reqFlowCtrl flow => cases h; exact .withArgument _ fun m => .requests _ [flowRequest m]
  | reqSetBaud fam =>
      cases h
      exact .withArgument _ fun f => .withArgument _ fun b => .withTolerance _ <| .baud _ rfl _ [baudRequest _]
  | reqSetLine dbits par stop brk => cases h; exact .withArgument _ fun c => .requests _ [lineRequest c]
  | reqPollStatus => cases h; exact .requests _ [pollRequest]
  | reqConfigure fam dbits par stop brk flow dtr rts => cases h; exact reqConfigureResponse_form ..
  | encLine dbits par stop brk => cases h; exact .withArgument _ fun c => .lineValue dbits par stop brk _
  | encBaud fam => cases h; exact .withArgument _ fun f => .withArgument _ fun b => .baud _ rfl _ []
  | stripFrame => exact stripFrameResponse_form h

/-- The response a command leaves has one of the forms. -/
theorem exec_responseForm {i : Instr} {s t : State} (h : exec i s = .next t) :
    ResponseForm i t.lastResponse := by
  obtain ⟨_, _, _, hr⟩ := commandResponse_of_exec h
  exact commandResponse_form hr

/-! ### What the forms leave without a value -/

theorem opcode_of_baudField_isSome {i : Instr} (h : (baudField i).isSome) :
    i.opcode = .encBaud ∨ i.opcode = .reqSetBaud ∨ i.opcode = .reqConfigure := by
  cases i <;> simp_all [baudField, Instr.opcode]

theorem not_errorCode_of_isError_eq_false {st : Status} {c : Byte} (hst : st.isError = false)
    (hc : st.code = c) : ¬ errorCode c := by
  subst hc
  cases st <;> simp_all [Status.isError, Status.code, errorCode]

namespace ResponseForm
variable {i : Instr} {r : Response}

/-- Only ENC_LINE writes LINE_VALUE. -/
theorem opcode_of_lineValue (h : ResponseForm i r) (hv : r.lineValue ≠ none) : i.opcode = .encLine := by
  cases h with
  | lineValue => rfl
  | raised | requests | baud | payload => exact absurd rfl hv

/-- Only the commands that encode a rate write the three fields of a BaudResult. -/
theorem opcode_of_baudFields (h : ResponseForm i r)
    (hv : r.divValue ≠ none ∨ r.divIndex ≠ none ∨ r.achieved ≠ none) :
    i.opcode = .encBaud ∨ i.opcode = .reqSetBaud ∨ i.opcode = .reqConfigure := by
  cases h with
  | baud _ hi => exact opcode_of_baudField_isSome hi
  | raised | requests | lineValue | payload =>
      simp [raise, okRequests, okLineValue, payloadResponse] at hv

/-- Only STRIP_FRAME writes PAYLOAD and PAYLOAD_LEN. -/
theorem eq_stripFrame_of_payload (h : ResponseForm i r) (hv : r.payload ≠ none ∨ r.payloadLen ≠ none) :
    i = .stripFrame := by
  cases h with
  | payload => rfl
  | raised | requests | lineValue | baud => simp [raise, okRequests, okLineValue, okBaud] at hv

/-- An error status stands alone (60_exceptions.md R236): the other forms hold OK or SHORT_FRAME. -/
theorem eq_statusOnly_of_errorCode (h : ResponseForm i r) {c : Byte} (hc : r.status = some c)
    (he : errorCode c) : r = statusOnly c := by
  cases h with
  | raised _ st _ =>
      obtain rfl := Option.some.inj hc
      rfl
  | requests | lineValue | baud =>
      exact absurd he (not_errorCode_of_isError_eq_false (st := .ok) rfl (Option.some.inj hc))
  | payload st hst bs => exact absurd he (not_errorCode_of_isError_eq_false hst (Option.some.inj hc))

end ResponseForm

/-! ### Reading a field -/

section readers
variable {α : Type} {field : ResponseField} {value : Option α}

theorem readField_of_eq_none (h : value = none) : readField field value = .error (.noValue field) := by
  rw [h, readField_none]

theorem readField_of_eq_some (v : α) (h : value = some v) : readField field value = .ok v := by
  rw [h, readField_some]

end readers

/-! ### The statements on the response record -/

/-- Settles O44: the forms of a response say which fields a command writes, and every reader is
`readField`. -/
theorem unwrittenFieldsHoldNoValueAndFaultOnRead :
    Obligations.UnwrittenFieldsHoldNoValueAndFaultOnRead := by
  refine ⟨fun i s t h => ?_, fun r => ?_⟩
  · have hform := exec_responseForm h
    exact ⟨hform.opcode_of_lineValue, hform.opcode_of_baudFields, hform.eq_stripFrame_of_payload,
      fun _ => hform.eq_statusOnly_of_errorCode⟩
  · exact ⟨readField_of_eq_none, readField_of_eq_none, readField_of_eq_none, readField_of_eq_none,
      readField_of_eq_none, readField_of_eq_none, readField_of_eq_none, readField_of_eq_some,
      readField_of_eq_some, readField_of_eq_some, readField_of_eq_some⟩

/-- Settles O52: both responses are `transactionResponse` of the same parameters and the same inputs. -/
theorem responsesDependOnOwnInputsOnly : Obligations.ResponsesDependOnOwnInputsOnly := by
  intro s s' t t' tx tx' rest rest' hport hmax hp hp' hcmd hbaud hframe hnread hs hs'
  have hr := transactionResponse_of_step hp hs
  have hr' := transactionResponse_of_step hp' hs'
  rw [hport, hmax, transactionResponse_congr _ _ hcmd hbaud hframe hnread] at hr
  exact Except.ok.inj (hr.symm.trans hr')

end Sys2Proof.Machine
end

section
/-!
# Runs that answer every presented transaction (20_memory.md section 3)

Every transaction has a response, so a run of as many steps as there are presented transactions answers them
all, each with its own response. The first part proves that a response always exists, the second says what
such a run leaves, and the third settles the statement on interleavings.
-/

namespace Sys2Proof.Machine

/-! ### Every transaction has a response -/

/-- STRIP_FRAME reads inside the frame only: its checks on NREAD bound the range (43_frame_strip.md R212). -/
theorem stripFrameResponse_total (maxPacket : Half) (frame : Memory) (nread : Half) :
    ∃ r, stripFrameResponse maxPacket frame nread = .ok r := by
  unfold stripFrameResponse
  split
  case isTrue => exact ⟨_, rfl⟩
  split
  case isTrue => exact ⟨_, rfl⟩
  split
  case isTrue => exact ⟨_, rfl⟩
  rename_i hcount _
  obtain ⟨bs, hread, _⟩ :=
    frame.readRange_length (nreadOperand nread - headerLen) headerLen (by omega)
  rw [hread]
  exact ⟨_, rfl⟩

/-- Only STRIP_FRAME reads the frame, so only its response needs an argument. -/
theorem commandResponse_total (portIndex : BitVec 8) (maxPacket : Half) (tx : Transaction) (i : Instr) :
    ∃ r, commandResponse portIndex maxPacket tx i = .ok r := by
  cases i with
  | stripFrame => exact stripFrameResponse_total maxPacket tx.frame tx.nread
  | reqReset | reqModemCtrl | reqFlowCtrl | reqSetBaud | reqSetLine | reqPollStatus | reqConfigure
  | encLine | encBaud => exact ⟨_, rfl⟩

/-- The block answers every transaction, whatever its word (60_exceptions.md R230, R231). -/
theorem transactionResponse_total (portIndex : BitVec 8) (maxPacket : Half) (tx : Transaction) :
    ∃ r, transactionResponse portIndex maxPacket tx = .ok r := by
  unfold transactionResponse
  split
  · exact commandResponse_total portIndex maxPacket tx _
  · exact ⟨_, rfl⟩

/-! ### What a run leaves -/

/-- A run goes on from the state its first step answers. -/
theorem run_succ_of_step {s t : State} (n : Nat) (h : step s = .next t) :
    Host.Core.run core (n + 1) s = Host.Core.run core n t := by
  have hcore : core.step s = .next t := h
  simp only [Host.Core.run, hcore]

/-- The state once every presented transaction has been answered by `respond`, in the order presented;
`run_presented` ties it to the model. -/
def State.allAnswered (s : State) (respond : Transaction → Response) : State :=
  { s with presented := [], completed := s.completed ++ s.presented.map fun tx => ⟨tx, respond tx⟩ }

theorem State.allAnswered_of_presented_nil {s : State} (respond : Transaction → Response)
    (hp : s.presented = []) : s.allAnswered respond = s := by
  cases s
  cases hp
  simp [State.allAnswered]

/-- Answering the first transaction before all the others is answering all. -/
theorem State.allAnswered_answered {s : State} {tx : Transaction} {rest : List Transaction}
    (respond : Transaction → Response) (hp : s.presented = tx :: rest) :
    (s.answered tx rest (respond tx)).allAnswered respond = s.allAnswered respond := by
  simp [State.allAnswered, State.answered, hp]

/-- A run over the presented transactions answers each with its own response: no step changes the
parameters, and a response depends on nothing else but its transaction (10_state.md R33). -/
theorem run_presented {s : State} {respond : Transaction → Response}
    (hr : ∀ tx, transactionResponse s.portIndex s.maxPacket tx = .ok (respond tx)) :
    Host.Core.run core s.presented.length s = .next (s.allAnswered respond) := by
  induction hp : s.presented generalizing s with
  | nil => rw [State.allAnswered_of_presented_nil respond hp]; rfl
  | cons tx rest ih =>
      have hstep : step s = .next (s.answered tx rest (respond tx)) :=
        (step_eq_answer_transactionResponse hp).trans (answer_cons hp (hr tx))
      calc Host.Core.run core (rest.length + 1) s
          = Host.Core.run core rest.length (s.answered tx rest (respond tx)) := run_succ_of_step _ hstep
        _ = .next ((s.answered tx rest (respond tx)).allAnswered respond) := ih hr rfl
        _ = .next (s.allAnswered respond) := by rw [State.allAnswered_answered respond hp]

/-! ### What an agent receives -/

/-- An agent receives, after its earlier responses, the responses to its own presented transactions
(60_exceptions.md R243). -/
theorem State.responsesTo_allAnswered (s : State) (respond : Transaction → Response) (agent : Nat) :
    (s.allAnswered respond).responsesTo agent =
      s.responsesTo agent ++ (s.presented.filter fun tx => tx.agent == agent).map respond := by
  simp [State.responsesTo, State.allAnswered, List.filter_map, Function.comp_def]

/-- Settles O54: one function of the transaction gives the responses of both runs, and the agent's own
transactions are the same in both. -/
theorem interleavingGivesEachAgentItsOwnResponses :
    Obligations.InterleavingGivesEachAgentItsOwnResponses := by
  intro s agent own
  choose respond hrespond using transactionResponse_total s.portIndex s.maxPacket
  have halone : { s with presented := own }.responsesTo agent = s.responsesTo agent := rfl
  refine ⟨_, _, run_presented hrespond, run_presented (s := { s with presented := own }) hrespond,
    rfl, rfl, ?_⟩
  rw [State.responsesTo_allAnswered, State.responsesTo_allAnswered, halone]
  simp only [own, List.filter_filter, Bool.and_self]

end Sys2Proof.Machine
end

section
/-!
# The answer to a word with a known opcode (30_encoding.md R72)

A word whose OPC is an opcode is tested against that opcode's MASK and MATCH: it is answered with
ILLEGAL_COMMAND or as the command its fields make.
-/

namespace Sys2Proof.Machine

/-- With a known opcode the decoder's answer is the MASK and MATCH test. -/
theorem decode_of_opcode {w : Word} (op : Opcode) (hopc : w.extractLsb' 0 8 = op.code) :
    decode w = if w &&& op.mask = op.matchWord then .ok (op.assemble (CmdFields.ofWord w))
      else .error (.unusedFieldNonZero op) := by
  have hcode : (CmdFields.ofWord w).opc = op.code := hopc
  simp [decode, hcode, Opcode.accepts]

/-- A step on a word with a known opcode answers ILLEGAL_COMMAND, or the response `r` of the command that the
word's fields make. -/
theorem step_of_opcode {s : State} {tx : Transaction} {rest : List Transaction} {r : Response} (op : Opcode)
    (hp : s.presented = tx :: rest) (hopc : tx.cmd.extractLsb' 0 8 = op.code)
    (hr : commandResponse s.portIndex s.maxPacket tx (op.assemble (CmdFields.ofWord tx.cmd)) = .ok r) :
    step s = .next (s.answered tx rest
      (if tx.cmd &&& op.mask ≠ op.matchWord then statusOnly 0x03 else r)) := by
  rw [step_eq_answer_transactionResponse hp]
  refine answer_cons hp ?_
  rw [transactionResponse, decode_of_opcode op hopc]
  by_cases hmatch : tx.cmd &&& op.mask = op.matchWord
  · simp [hmatch, hr]
  · rw [if_neg hmatch, if_pos hmatch]
    rfl

end Sys2Proof.Machine
end

section
/-!
# The line-encoding packer (40_line_encoding.md R100 to R106)

The four codes fit the places they are shifted to, so the OR of R100 is a sum and every field can be read
back. The first part proves this of `lineEncode`; the second relates the fields of the command word to the
codes; the third settles the statements on the packer and on ENC_LINE.
-/

namespace Sys2Proof.Machine

/-! ### The packed value is the sum of its fields -/

theorem dataBitsCode_lt (d : DataBits) : (dataBitsCode d).toNat < 2 ^ 8 := by cases d <;> decide

theorem parityCode_lt (p : Parity) : (parityCode p).toNat < 2 ^ 3 := by cases p <;> decide

theorem stopCode_lt (st : StopBits) : (stopCode st).toNat < 2 ^ 3 := by cases st <;> decide

theorem breakCode_lt (brk : Bool) : (breakCode brk).toNat < 2 ^ 1 := by cases brk <;> decide

/-- An OR with a value shifted past the bits of `x` is a sum, as long as the shift loses no bit. -/
theorem toNat_or_shiftLeft {x y : Half} {k : Nat} (hx : x.toNat < 2 ^ k) (hy : y.toNat * 2 ^ k < 2 ^ 16) :
    (x ||| y <<< k).toNat = x.toNat + y.toNat * 2 ^ k := by
  rw [BitVec.toNat_or, BitVec.toNat_shiftLeft, Nat.shiftLeft_eq, Nat.mod_eq_of_lt hy, Nat.or_comm,
    Nat.mul_comm, ← Nat.two_pow_add_eq_or_of_lt hx, Nat.add_comm]

/-- The codes lie side by side (40_line_encoding.md R100 to R104). -/
theorem lineEncode_toNat (c : LineConfig) :
    (lineEncode c).toNat = (dataBitsCode c.dataBits).toNat + (parityCode c.parity).toNat * 2 ^ 8
      + (stopCode c.stopBits).toNat * 2 ^ 11 + (breakCode c.brk).toNat * 2 ^ 14 := by
  have hd := dataBitsCode_lt c.dataBits
  have hp := parityCode_lt c.parity
  have hs := stopCode_lt c.stopBits
  have hb := breakCode_lt c.brk
  have hdp := toNat_or_shiftLeft (y := parityCode c.parity) hd (by omega)
  have hdps := toNat_or_shiftLeft (y := stopCode c.stopBits) (k := 11) (hdp.trans_lt (by omega)) (by omega)
  have hall := toNat_or_shiftLeft (y := breakCode c.brk) (k := 14) (hdps.trans_lt (by omega)) (by omega)
  rw [lineEncode, hall, hdps, hdp]

/-- Reading bits out of a packed value is dividing the sum of its fields. -/
theorem lineEncode_extract (c : LineConfig) (start len : Nat) :
    ((lineEncode c).extractLsb' start len).toNat =
      ((dataBitsCode c.dataBits).toNat + (parityCode c.parity).toNat * 2 ^ 8
        + (stopCode c.stopBits).toNat * 2 ^ 11 + (breakCode c.brk).toNat * 2 ^ 14) / 2 ^ start % 2 ^ len := by
  rw [BitVec.extractLsb'_toNat, Nat.shiftRight_eq_div_pow, lineEncode_toNat]

/-- Every code is read back from its own bits (40_line_encoding.md R101 to R104). -/
theorem lineEncode_fields (c : LineConfig) :
    ((lineEncode c).extractLsb' 0 8).toNat = (dataBitsCode c.dataBits).toNat ∧
      ((lineEncode c).extractLsb' 8 3).toNat = (parityCode c.parity).toNat ∧
      ((lineEncode c).extractLsb' 11 3).toNat = (stopCode c.stopBits).toNat ∧
      ((lineEncode c).extractLsb' 14 1).toNat = (breakCode c.brk).toNat := by
  have hd := dataBitsCode_lt c.dataBits
  have hp := parityCode_lt c.parity
  have hs := stopCode_lt c.stopBits
  have hb := breakCode_lt c.brk
  simp only [lineEncode_extract]
  omega

/-! ### The line fields of a command word -/

/-- Everything `dataBitsOf` can do: the count is its own code (30_encoding.md R76). -/
theorem dataBitsOf_cases (dbits : BitVec 4) :
    (dataBitsOf dbits = none ∧ ¬ (dbits.toNat = 7 ∨ dbits.toNat = 8)) ∨
      ∃ d, dataBitsOf dbits = some d ∧ (dbits.toNat = 7 ∨ dbits.toNat = 8) ∧
        (dataBitsCode d).toNat = dbits.toNat := by
  unfold dataBitsOf
  split
  case h_1 h => exact .inr ⟨.seven, rfl, .inl h, h.symm⟩
  case h_2 h => exact .inr ⟨.eight, rfl, .inr h, h.symm⟩
  case h_3 h7 h8 => exact .inl ⟨rfl, not_or.mpr ⟨h7, h8⟩⟩

/-- Everything `parityOf` can do: the field is the parity's code (30_encoding.md R77). -/
theorem parityOf_cases (par : BitVec 3) :
    (parityOf par = none ∧ 4 < par.toNat) ∨
      ∃ p, parityOf par = some p ∧ ¬ 4 < par.toNat ∧ (parityCode p).toNat = par.toNat := by
  unfold parityOf
  split
  case h_1 h => exact .inr ⟨.none, rfl, by omega, h.symm⟩
  case h_2 h => exact .inr ⟨.odd, rfl, by omega, h.symm⟩
  case h_3 h => exact .inr ⟨.even, rfl, by omega, h.symm⟩
  case h_4 h => exact .inr ⟨.mark, rfl, by omega, h.symm⟩
  case h_5 h => exact .inr ⟨.space, rfl, by omega, h.symm⟩
  case h_6 => exact .inl ⟨rfl, by simp only [imp_false] at *; omega⟩

/-- Everything `stopBitsOf` can do: only selector 0 has code 0 (30_encoding.md R78, 40_line_encoding.md
R103). -/
theorem stopBitsOf_cases (stop : BitVec 2) :
    (stopBitsOf stop = none ∧ 2 < stop.toNat) ∨
      ∃ st, stopBitsOf stop = some st ∧ ¬ 2 < stop.toNat ∧
        (stopCode st).toNat = if stop.toNat = 0 then 0 else 1 := by
  unfold stopBitsOf
  split
  case h_1 h => exact .inr ⟨.one, rfl, by omega, by rw [h]; rfl⟩
  case h_2 h => exact .inr ⟨.oneAndHalf, rfl, by omega, by rw [h]; rfl⟩
  case h_3 h => exact .inr ⟨.two, rfl, by omega, by rw [h]; rfl⟩
  case h_4 => exact .inl ⟨rfl, by simp only [imp_false] at *; omega⟩

/-- The break flag is its own code (30_encoding.md R79, 40_line_encoding.md R104). -/
theorem breakCode_breakOf (brk : BitVec 1) : (breakCode (breakOf brk)).toNat = brk.toNat := by
  revert brk
  decide

/-- What a command that consumes a line configuration answers, when it uses the packed value only: the checks
on DBITS, PAR and STOP, then the value as the sum of the fields of the word. -/
theorem withArgument_lineConfigOf (dbits : BitVec 4) (par : BitVec 3) (stop : BitVec 2) (brk : BitVec 1)
    (respond : Half → Response) :
    withArgument (lineConfigOf dbits par stop brk) (fun c => respond (lineEncode c)) =
      if ¬ (dbits.toNat = 7 ∨ dbits.toNat = 8) then statusOnly 0x01
      else if 4 < par.toNat then statusOnly 0x01
      else if 2 < stop.toNat then statusOnly 0x01
      else respond (BitVec.ofNat 16 (dbits.toNat + par.toNat * 0x100
        + (if stop.toNat = 0 then 0 else 0x0800) + brk.toNat * 0x4000)) := by
  have hraise : raise .invalidArgument = statusOnly 0x01 := rfl
  obtain ⟨hd, hbad⟩ | ⟨d, hd, hdlegal, hdcode⟩ := dataBitsOf_cases dbits
  · rw [if_pos hbad, ← hraise]
    simp [lineConfigOf, hd]
  rw [if_neg (not_not.mpr hdlegal)]
  obtain ⟨hp, hbad⟩ | ⟨p, hp, hplegal, hpcode⟩ := parityOf_cases par
  · rw [if_pos hbad, ← hraise]
    simp [lineConfigOf, hp]
  rw [if_neg hplegal]
  obtain ⟨hs, hbad⟩ | ⟨st, hs, hslegal, hscode⟩ := stopBitsOf_cases stop
  · rw [if_pos hbad, ← hraise]
    simp [lineConfigOf, hs]
  rw [if_neg hslegal]
  have hvalue : (lineEncode ⟨d, p, st, breakOf brk⟩).toNat = dbits.toNat + par.toNat * 0x100
      + (if stop.toNat = 0 then 0 else 0x0800) + brk.toNat * 0x4000 := by
    rw [lineEncode_toNat, hdcode, hpcode, hscode, breakCode_breakOf]
    split <;> rfl
  rw [← hvalue, BitVec.ofNat_toNat, BitVec.setWidth_eq]
  simp [lineConfigOf, hd, hp, hs]

/-! ### The statements on the packer and on ENC_LINE -/

/-- Settles O19: the MASK and MATCH test of the opcode, then the checks on the line fields, then the packed
value. -/
theorem encLineFollowsItsRule : Obligations.EncLineFollowsItsRule := by
  intro s tx rest hp hopc
  refine (step_of_opcode .encLine hp hopc rfl).trans ?_
  rw [encLineResponse,
    withArgument_lineConfigOf _ _ _ _ fun v => (Response.ofStatus .ok).setLineValue v]
  rfl

/-- Settles O29: every code is read back from its own bits, and the codes are the ones of R101 to R104. -/
theorem lineEncodeFieldsHoldTheirCodes : Obligations.LineEncodeFieldsHoldTheirCodes := by
  intro c
  obtain ⟨hdata, hparity, hstop, hbreak⟩ := lineEncode_fields c
  refine ⟨hdata.trans ?_, hparity.trans ?_, hstop.trans ?_, hbreak.trans ?_⟩
  · cases c.dataBits <;> rfl
  · cases c.parity <;> rfl
  · cases c.stopBits <;> rfl
  · cases c.brk <;> rfl

end Sys2Proof.Machine
end

section
/-!
# The baud-divisor calculator (41_baud_encoding.md R120 to R156)

The first part writes the tables and the packing as division, remainder and list lookup; the second and the
third do the same for the AM path and the general path; the fourth bounds the encoded divisor of each family
and splits it. The fifth settles the statements on the calculator.
-/

namespace Sys2Proof.Machine

/-! ### Tables and packing -/

/-- A ROM is read at the remainder of its index (00_scope.md R13). -/
theorem romAt_eq_getD (rom : Vector Nat 8) (d8 : Nat) : romAt rom d8 = rom.toList.getD (d8 % 8) 0 := by
  rw [romAt, fraction_eq_mod]

theorem absDiff_cast (a b : Nat) : (absDiff a b : Int) = |(a : Int) - b| := Int.natCast_natAbs _

/-- The integer part and the fractional code of a packed divisor lie side by side (41_baud_encoding.md
R132, R145). -/
theorem packDivisor_eq_getD {d8 : Nat} (h : d8 < 0x20000) :
    packDivisor d8 = d8 / 8 + [0, 3, 2, 4, 1, 5, 6, 7].getD (d8 % 8) 0 * 0x4000 := by
  rw [packDivisor_eq d8 h, romAt_eq_getD, Nat.add_comm]
  rfl

/-! ### The AM path -/

theorem amAdjust_eq_getD (t : Nat) :
    amAdjust t =
      if t ≤ 8 then 8 else if t < 16 then 16
      else if 0x1FFF8 < t + [0, 0, 0, 1, 0, 3, 2, 1].getD (t % 8) 0 then 0x1FFF8
      else t + [0, 0, 0, 1, 0, 3, 2, 1].getD (t % 8) 0 := by
  have hup : romAt amAdjustUpRom t = [0, 0, 0, 1, 0, 3, 2, 1].getD (t % 8) 0 := romAt_eq_getD _ t
  rw [amAdjust, hup, min_comm, min_def_lt]
  rfl

/-- AM_ADJUST_UP takes every fraction to one the AM part supports (41_baud_encoding.md R128). -/
theorem add_romAt_amAdjustUp_fraction (t : Nat) :
    (t + romAt amAdjustUpRom t) % 8 = 0 ∨ (t + romAt amAdjustUpRom t) % 8 = 1 ∨
      (t + romAt amAdjustUpRom t) % 8 = 2 ∨ (t + romAt amAdjustUpRom t) % 8 = 4 := by
  have htable : ∀ f < 8, (f + amAdjustUpRom.toList.getD f 0) % 8 ∈ [0, 1, 2, 4] := by decide
  have hmod := htable (t % 8) (Nat.mod_lt t (by decide))
  rw [Nat.mod_add_mod, ← romAt_eq_getD] at hmod
  simpa using hmod

/-- An adjusted divisor has a fraction of 0, 1, 2 or 4 eighths: the minimum, 16 and the clamp are whole. -/
theorem amAdjust_fraction (t : Nat) :
    amAdjust t % 8 = 0 ∨ amAdjust t % 8 = 1 ∨ amAdjust t % 8 = 2 ∨ amAdjust t % 8 = 4 := by
  have hfraction := add_romAt_amAdjustUp_fraction t
  unfold amAdjust amMinD8 amMaxD8
  split
  · exact .inl rfl
  split
  · exact .inl rfl
  · obtain hmin | hmin := min_choice (t + romAt amAdjustUpRom t) 0x1FFF8 <;> rw [hmin]
    · exact hfraction
    · exact .inl rfl

/-- Leaving out candidate 1 when candidate 0 is exact changes nothing: it could not replace it
(41_baud_encoding.md R131). -/
theorem amSurvivor_eq (baud : Nat) :
    amSurvivor baud = if (amCandidate baud 1).diff < (amCandidate baud 0).diff then amCandidate baud 1
      else amCandidate baud 0 := by
  by_cases hexact : (amCandidate baud 0).diff = 0 <;> simp [amSurvivor, hexact]

/-- The surviving divisor, with the errors as distances of integers. -/
theorem amSurvivor_t (baud : Nat) :
    (amSurvivor baud).t =
      if |(amEstimate (amAdjust (amStart baud + 1)) : Int) - baud| <
        |(amEstimate (amAdjust (amStart baud)) : Int) - baud| then amAdjust (amStart baud + 1)
      else amAdjust (amStart baud) := by
  rw [amSurvivor_eq, apply_ite AmCandidate.t]
  simp only [← absDiff_cast, Int.ofNat_lt]
  rfl

theorem amSurvivor_est (baud : Nat) : (amSurvivor baud).est = amEstimate (amSurvivor baud).t := by
  obtain h | h := amSurvivor_cases baud <;> rw [h] <;> rfl

theorem amSurvivor_adjusted (baud : Nat) : ∃ t, (amSurvivor baud).t = amAdjust t := by
  obtain h | h := amSurvivor_cases baud <;> exact ⟨_, congrArg AmCandidate.t h⟩

/-- The divisor AM_PATH packs fits 17 bits. -/
theorem amSurvivor_t_lt (baud : Nat) : (amSurvivor baud).t < 0x20000 := by
  obtain ⟨t, ht⟩ := amSurvivor_adjusted baud
  have := amAdjust_bounds t
  omega

theorem amRemap_le (enc : Nat) : amRemap enc ≤ enc := by
  unfold amRemap
  split
  · omega
  split <;> omega

/-- The fractional codes of the supported fractions are at most 3, so an AM divisor has no high bits. -/
theorem amPath_enc_lt (baud : Nat) : (amPath baud).enc < 2 ^ 16 := by
  have hcode : [0, 3, 2, 4, 1, 5, 6, 7].getD ((amSurvivor baud).t % 8) 0 ≤ 3 := by
    obtain ⟨t, ht⟩ := amSurvivor_adjusted baud
    obtain h | h | h | h := amAdjust_fraction t <;> rw [ht, h] <;> decide
  have ht := amSurvivor_t_lt baud
  calc amRemap (packDivisor (amSurvivor baud).t)
      ≤ packDivisor (amSurvivor baud).t := amRemap_le _
    _ < 2 ^ 16 := by rw [packDivisor_eq_getD ht]; omega

/-- An estimate is at most its dividend, so the achieved rate fits ACHIEVED (41_baud_encoding.md R155). -/
theorem amPath_ach_lt (baud : Nat) : (amPath baud).ach < 2 ^ 32 := by
  have ht := amSurvivor_t_lt baud
  calc (amSurvivor baud).est
      = (24000000 + (amSurvivor baud).t / 2) / (amSurvivor baud).t := amSurvivor_est baud
    _ ≤ 24000000 + (amSurvivor baud).t / 2 := Nat.div_le_self _ _
    _ < 2 ^ 32 := by omega

/-! ### The general path -/

/-- The fractional search over a divided clock counted in sixteenths (41_baud_encoding.md R143 to R145);
`general_eq_fractionalSearch` ties it to the model. -/
def fractionalSearch (sixteenths baud : Nat) : EncodedRate :=
  let d8 := min ((sixteenths / baud + 1) / 2) 0x1FFFF
  { enc := d8 / 8 + [0, 3, 2, 4, 1, 5, 6, 7].getD (d8 % 8) 0 * 0x4000,
    ach := (sixteenths / d8 + 1) / 2 }

theorem generalDivisor_lt (baud clk div : Nat) : generalDivisor baud clk div < 0x20000 :=
  Nat.lt_succ_of_le (min_le_right _ _)

/-- The general path is three fast paths and then the fractional search (41_baud_encoding.md R140 to R145). -/
theorem general_eq_fractionalSearch (baud clk div : Nat) :
    general baud clk div =
      if clk / div ≤ baud then { enc := 0, ach := clk / div }
      else if clk / (div + div / 2) ≤ baud then { enc := 1, ach := clk / (div + div / 2) }
      else if clk / (2 * div) ≤ baud then { enc := 2, ach := clk / (2 * div) }
      else fractionalSearch (clk * 16 / div) baud := by
  have hsearch : fractionalSearch (clk * 16 / div) baud =
      { enc := packDivisor (generalDivisor baud clk div),
        ach := halveUp (clk * 16 / div / generalDivisor baud clk div) } := by
    rw [packDivisor_eq_getD (generalDivisor_lt baud clk div)]
    simp only [generalDivisor, halveUp_eq_div, genMaxD8, fractionalSearch]
  rw [hsearch]
  rfl

/-- Everything `general` can answer: a fast path or the packed divisor of the search. -/
theorem general_cases (baud clk div : Nat) :
    (∃ n ≤ 2, ∃ m, general baud clk div = { enc := n, ach := clk / m }) ∨
      general baud clk div =
        { enc := packDivisor (generalDivisor baud clk div),
          ach := halveUp (clk * 16 / div / generalDivisor baud clk div) } := by
  unfold general
  split
  · exact .inl ⟨0, by decide, _, rfl⟩
  split
  · exact .inl ⟨1, by decide, _, rfl⟩
  split
  · exact .inl ⟨2, by decide, _, rfl⟩
  · exact .inr rfl

theorem general_enc_lt (baud clk div : Nat) : (general baud clk div).enc < 2 ^ 17 := by
  obtain ⟨n, hn, m, h⟩ | h := general_cases baud clk div <;> rw [h]
  · exact hn.trans_lt (by decide)
  · exact packDivisor_lt _ (generalDivisor_lt baud clk div)

/-- No division makes a rate larger than the clock in sixteenths (41_baud_encoding.md R144). -/
theorem general_ach_le (baud clk div : Nat) : (general baud clk div).ach ≤ clk * 16 + 1 := by
  obtain ⟨n, _, m, h⟩ | h := general_cases baud clk div <;> rw [h]
  · exact (Nat.div_le_self clk m).trans (by omega)
  · have hdiv := Nat.div_le_self (clk * 16) div
    have hdivisor := Nat.div_le_self (clk * 16 / div) (generalDivisor baud clk div)
    dsimp only
    rw [halveUp_eq_div]
    omega

/-! ### The encoded divisor of each family and its split -/

/-- H_CLK_FLAG lies above the bits of the general path, so setting it adds it (41_baud_encoding.md R121). -/
theorem encodedRate_h (baud : Nat) :
    encodedRate baud .h =
      if 7324 < baud * 10 then
        { enc := (general baud hClk hDiv).enc + 0x20000, ach := (general baud hClk hDiv).ach }
      else general baud cClk cDiv := by
  have hflag : (general baud hClk hDiv).enc ||| hClkFlag = (general baud hClk hDiv).enc + 0x20000 := by
    rw [Nat.or_comm, Nat.add_comm]
    exact (Nat.two_pow_add_eq_or_of_lt (general_enc_lt baud hClk hDiv) 1).symm
  rw [← hflag]
  rfl

theorem encodedRate_h_enc_lt (baud : Nat) : (encodedRate baud .h).enc < 2 ^ 18 := by
  have hhigh := general_enc_lt baud hClk hDiv
  have hlow := general_enc_lt baud cClk cDiv
  rw [encodedRate_h]
  split
  · exact Nat.add_lt_add_right hhigh 0x20000
  · exact hlow.trans (by decide)

/-- An achieved rate fits the 32 bits of ACHIEVED (41_baud_encoding.md R155). -/
theorem encodedRate_ach_lt (baud : Nat) (fam : Family) : (encodedRate baud fam).ach < 2 ^ 32 := by
  have hlow : (general baud cClk cDiv).ach < 2 ^ 32 := (general_ach_le _ _ _).trans_lt (by decide)
  have hhigh : (general baud hClk hDiv).ach < 2 ^ 32 := (general_ach_le _ _ _).trans_lt (by decide)
  cases fam with
  | am => exact amPath_ach_lt baud
  | bm => exact hlow
  | h => rw [encodedRate_h]; split <;> assumption

/-- The low 16 bits (41_baud_encoding.md R150). -/
theorem divisorValue_toNat (enc : Nat) : (divisorValue enc).toNat = enc % 0x10000 := by
  rw [divisorValue, BitVec.toNat_ofNat, Nat.and_two_pow_sub_one_eq_mod enc 16, Nat.mod_mod]

/-- The high bits of an AM or BM divisor (41_baud_encoding.md R151). -/
theorem divisorIndex_toNat_of_ne_h {fam : Family} (hfam : fam ≠ .h) (port : BitVec 8) {enc : Nat}
    (h : enc < 2 ^ 32) : (divisorIndex fam port enc).toNat = enc / 0x10000 := by
  have hhigh : (BitVec.ofNat 16 (enc >>> 16)).toNat = enc / 0x10000 := by
    rw [BitVec.toNat_ofNat, Nat.shiftRight_eq_div_pow]
    omega
  cases fam with
  | am | bm => exact hhigh
  | h => exact absurd rfl hfam

/-- Masking bits 15:8 of the divisor shifted down by 8 leaves its high bits in the high byte. -/
theorem shiftRight_and_highByte {enc : Nat} (h : enc < 2 ^ 24) :
    enc >>> 8 &&& 0xFF00 = (enc / 0x10000) <<< 8 := by
  have hbyte : enc >>> 16 < 2 ^ 8 := by rw [Nat.shiftRight_eq_div_pow]; omega
  calc enc >>> 8 &&& (2 ^ 8 - 1) <<< 8
      = (enc >>> 16 &&& (2 ^ 8 - 1)) <<< 8 := by
        refine Nat.eq_of_testBit_eq fun i => ?_
        simp only [Nat.testBit_and, Nat.testBit_shiftRight, Nat.testBit_shiftLeft]
        by_cases hi : 8 ≤ i
        · rw [show 16 + (i - 8) = 8 + i by omega]
          simp [hi]
        · simp [hi]
    _ = (enc / 0x10000) <<< 8 := by
        rw [Nat.and_two_pow_sub_one_of_lt_two_pow hbyte, Nat.shiftRight_eq_div_pow]

/-- The high bits over PORT_INDEX (41_baud_encoding.md R152). -/
theorem divisorIndex_h_toNat (port : BitVec 8) {enc : Nat} (h : enc < 2 ^ 24) :
    (divisorIndex .h port enc).toNat = enc / 0x10000 * 0x100 + port.toNat := by
  have hport := port.isLt
  rw [divisorIndex, shiftRight_and_highByte h, ← Nat.shiftLeft_add_eq_or_of_lt hport, Nat.shiftLeft_eq,
    BitVec.toNat_ofNat]
  omega

/-! ### The statements on the calculator -/

/-- Settles O31: the survivor is the candidate the statement writes out, and its packing is a sum. -/
theorem amPathTakesTheNearestCandidate : Obligations.AmPathTakesTheNearestCandidate := by
  intro baud _ d0 d adjust est diff t0 t1 best packed
  have hd : amStart baud = d := by
    rw [amStart, romAt_eq_getD]
    rfl
  have hadjust : amAdjust = adjust := funext amAdjust_eq_getD
  have hbest : (amSurvivor baud).t = best := by
    rw [amSurvivor_t, hd, hadjust]
    rfl
  have hpacked : packDivisor (amSurvivor baud).t = packed := by
    rw [packDivisor_eq_getD (amSurvivor_t_lt baud), hbest]
  have hest : (amSurvivor baud).est = est best := by
    rw [amSurvivor_est, hbest]
    rfl
  have hmin : diff best = min (diff t0) (diff t1) := by
    rw [min_comm, min_def_lt]
    exact apply_ite diff _ _ _
  refine ⟨hmin.trans_le (min_le_left _ _), hmin.trans_le (min_le_right _ _), ?_⟩
  rw [← hpacked, ← hest]
  rfl

/-- Settles O33: the fast paths and the search on the two clocks, and bit 17 as a summand. -/
theorem generalPathFollowsItsRules : Obligations.GeneralPathFollowsItsRules := by
  intro baud _ search low high
  have hlow : general baud cClk cDiv = low := general_eq_fractionalSearch baud cClk cDiv
  have hhigh : general baud hClk hDiv = high := general_eq_fractionalSearch baud hClk hDiv
  refine ⟨hlow, ?_⟩
  rw [encodedRate_h, hlow, hhigh]

/-- Settles O34: the encoded divisors of the families fit 16, 17 and 18 bits. -/
theorem divisorSplitsIntoValueAndIndex : Obligations.DivisorSplitsIntoValueAndIndex := by
  intro baud port _
  have ham : (encodedRate baud .am).enc < 2 ^ 16 := amPath_enc_lt baud
  have hbm : (encodedRate baud .bm).enc < 2 ^ 17 := general_enc_lt baud cClk cDiv
  have hh := encodedRate_h_enc_lt baud
  have hamIndex : (baudEncode baud .am port).index.toNat = (encodedRate baud .am).enc / 0x10000 :=
    divisorIndex_toNat_of_ne_h (by decide) port (by omega)
  have hbmIndex : (baudEncode baud .bm port).index.toNat = (encodedRate baud .bm).enc / 0x10000 :=
    divisorIndex_toNat_of_ne_h (by decide) port (by omega)
  refine ⟨fun fam => divisorValue_toNat _, BitVec.eq_of_toNat_eq ?_, hbmIndex, ?_, ?_⟩
  · exact hamIndex.trans (Nat.div_eq_of_lt ham)
  · rw [hbmIndex]
    omega
  · exact divisorIndex_h_toNat port (by omega)

end Sys2Proof.Machine
end

section
/-!
# The commands that encode a rate (41_baud_encoding.md R120, R156, R158)

ENC_BAUD, REQ_SET_BAUD and REQ_CONFIGURE begin with the checks on FAM and BAUD; the last two check the
tolerance as well. The first part states the shared checks once, the second says which field values are legal,
the third when a response reports UNSUPPORTED_BAUD, and the fourth settles the statements on ENC_BAUD and on
the tolerance.
-/

namespace Sys2Proof.Machine

/-! ### The checks on FAM and BAUD -/

/-- Only FAM 3 names no family (30_encoding.md R75). -/
theorem familyOf_eq (fam : BitVec 2) : familyOf fam = if fam = 3 then none else some (famValue fam) := by
  revert fam
  decide

theorem famLegal_iff (fam : BitVec 2) : famLegal fam = true ↔ fam ≠ 3 := by
  revert fam
  decide

theorem baudRateOf_eq (baud : Word) :
    baudRateOf baud = if baud.toInt ≤ 0 then none else some baud.toInt.toNat := rfl

/-- What a command that consumes a rate answers: the checks on FAM and BAUD, then its body at the family and
the rate (41_baud_encoding.md R120). -/
theorem withArgument_family_baudRate (fam : BitVec 2) (baud : Word) (body : Family → Nat → Response) :
    (withArgument (familyOf fam) fun f => withArgument (baudRateOf baud) (body f)) =
      if fam = 3 then statusOnly 0x01
      else if baud.toInt ≤ 0 then statusOnly 0x01
      else body (famValue fam) baud.toInt.toNat := by
  have hraise : raise .invalidArgument = statusOnly 0x01 := rfl
  rw [familyOf_eq, baudRateOf_eq, ← hraise]
  split
  · rfl
  · rw [withArgument_some]
    split <;> rfl

theorem encBaudResponse_eq (portIndex : BitVec 8) (fam : BitVec 2) (baud : Word) :
    encBaudResponse portIndex fam baud =
      if fam = 3 then statusOnly 0x01
      else if baud.toInt ≤ 0 then statusOnly 0x01
      else okBaud (baudEncode baud.toInt.toNat (famValue fam) portIndex) [] :=
  withArgument_family_baudRate fam baud fun f b => (Response.ofStatus .ok).setResult (baudEncode b f portIndex)

/-! ### Legal fields name a value -/

theorem isSome_dataBitsOf (dbits : BitVec 4) : (dataBitsOf dbits).isSome = dbitsLegal dbits := by
  revert dbits
  decide

theorem isSome_parityOf (par : BitVec 3) : (parityOf par).isSome = parLegal par := by
  revert par
  decide

theorem isSome_stopBitsOf (stop : BitVec 2) : (stopBitsOf stop).isSome = stopLegal stop := by
  revert stop
  decide

theorem isSome_flowModeOf (flow : BitVec 3) : (flowModeOf flow).isSome = flowLegal flow := by
  revert flow
  decide

theorem isSome_lineSelOf (sel : BitVec 2) : (lineSelOf sel).isSome = selLegal sel := by
  revert sel
  decide

/-- The line fields name a configuration exactly when each of them is legal (30_encoding.md R76 to R79). -/
theorem isSome_lineConfigOf (dbits : BitVec 4) (par : BitVec 3) (stop : BitVec 2) (brk : BitVec 1) :
    (lineConfigOf dbits par stop brk).isSome = lineLegal dbits par stop := by
  rw [lineLegal, ← isSome_dataBitsOf, ← isSome_parityOf, ← isSome_stopBitsOf, lineConfigOf]
  cases dataBitsOf dbits with
  | none => rfl
  | some d =>
      cases parityOf par with
      | none => rfl
      | some p => cases stopBitsOf stop <;> rfl

/-- The line, flow and modem fields of a REQ_CONFIGURE with legal fields each name a value. -/
theorem isSome_fields_of_reqConfigure_wellFormed {fam : BitVec 2} {dbits : BitVec 4} {par : BitVec 3}
    {stop : BitVec 2} {brk : BitVec 1} {flow : BitVec 3} {dtr rts : BitVec 2}
    (h : (Instr.reqConfigure fam dbits par stop brk flow dtr rts).wellFormed = true) :
    (lineConfigOf dbits par stop brk).isSome ∧ (flowModeOf flow).isSome ∧ (lineSelOf dtr).isSome ∧
      (lineSelOf rts).isSome := by
  simp only [Instr.wellFormed, Bool.and_eq_true] at h
  obtain ⟨⟨⟨⟨_, hline⟩, hflow⟩, hdtr⟩, hrts⟩ := h
  rw [isSome_lineConfigOf, isSome_flowModeOf, isSome_lineSelOf, isSome_lineSelOf]
  exact ⟨hline, hflow, hdtr, hrts⟩

/-! ### When a response reports UNSUPPORTED_BAUD -/

/-- `TOL_OK` as two bounds on the achieved rate (41_baud_encoding.md R156). -/
theorem tolOk_iff (req ach : Nat) :
    tolOk req ach = true ↔ 97 * req ≤ 100 * ach ∧ 100 * ach ≤ 103 * req := by
  rw [tolOk, decide_eq_true_iff, absDiff, tolPct]
  omega

/-- FAM and BAUD are legal and the rate cannot be achieved within 3% (60_exceptions.md R234);
`reqSetBaudResponse_unsupported_iff` ties it to the model. -/
def RateRefused (fam : BitVec 2) (baud : Word) : Prop :=
  fam ≠ 3 ∧ 0 < baud.toInt ∧ tolOk baud.toInt.toNat (encodedRate baud.toInt.toNat (famValue fam)).ach = false

theorem withArgument_unsupported_iff {α : Type} (arg : Option α) (body : α → Response) :
    (withArgument arg body).status = some 0x02 ↔ ∃ a, arg = some a ∧ (body a).status = some 0x02 := by
  cases arg with
  | none => simp [raise, Status.code]
  | some a => simp

theorem withTolerance_unsupported_iff (b : BaudResult) (body : BaudResult → Response) :
    (withTolerance b body).status = some 0x02 ↔
      tolOk b.req b.ach = false ∨ (body b).status = some 0x02 := by
  obtain ⟨htol, hr⟩ | ⟨htol, hr⟩ := withTolerance_cases b body <;> rw [htol, hr]
  · simp [raise, Status.code]
  · simp

@[simp] theorem Response.setResult_status (r : Response) (b : BaudResult) :
    (r.setResult b).status = r.status := rfl

theorem ok_ne_unsupported : some Status.ok.code ≠ some (0x02 : Byte) := by decide

/-- The checks on FAM and BAUD report INVALID_ARGUMENT only. -/
theorem family_baudRate_unsupported_iff (fam : BitVec 2) (baud : Word) (body : Family → Nat → Response) :
    (withArgument (familyOf fam) fun f => withArgument (baudRateOf baud) (body f)).status = some 0x02 ↔
      fam ≠ 3 ∧ 0 < baud.toInt ∧ (body (famValue fam) baud.toInt.toNat).status = some 0x02 := by
  rw [withArgument_family_baudRate]
  split
  · simp [statusOnly, *]
  split
  · simp [statusOnly, *]
  · rename_i hfam hbaud
    exact ⟨fun h => ⟨hfam, not_le.mp hbaud, h⟩, fun ⟨_, _, h⟩ => h⟩

/-- ENC_BAUD has no tolerance check (41_baud_encoding.md R158). -/
theorem encBaudResponse_not_unsupported (portIndex : BitVec 8) (fam : BitVec 2) (baud : Word) :
    (encBaudResponse portIndex fam baud).status ≠ some 0x02 := by
  rw [encBaudResponse, ne_eq, family_baudRate_unsupported_iff]
  rintro ⟨_, _, hstatus⟩
  exact ok_ne_unsupported hstatus

/-- ENC_BAUD shows a refused rate by an OK response whose ACHIEVED is out of tolerance. -/
theorem encBaudResponse_outOfTolerance_iff (portIndex : BitVec 8) (fam : BitVec 2) (baud : Word) :
    ((encBaudResponse portIndex fam baud).status = some 0x00 ∧
      ∃ ach, (encBaudResponse portIndex fam baud).achieved = some ach ∧
        tolOk baud.toInt.toNat ach.toNat = false) ↔ RateRefused fam baud := by
  rw [encBaudResponse_eq, RateRefused]
  split
  · simp [statusOnly, *]
  split
  · simp [statusOnly, *]
  · rename_i hfam hbaud
    have hach : (BitVec.ofNat 32 (encodedRate baud.toInt.toNat (famValue fam)).ach).toNat =
        (encodedRate baud.toInt.toNat (famValue fam)).ach := by
      rw [BitVec.toNat_ofNat, Nat.mod_eq_of_lt (encodedRate_ach_lt _ _)]
    constructor
    · rintro ⟨_, _, hsome, htol⟩
      obtain rfl := Option.some.inj hsome
      exact ⟨hfam, not_le.mp hbaud, hach ▸ htol⟩
    · rintro ⟨_, _, htol⟩
      exact ⟨rfl, _, rfl, hach.symm ▸ htol⟩

/-- REQ_SET_BAUD reports it for the refused rates (42_control_requests.md R181). -/
theorem reqSetBaudResponse_unsupported_iff (portIndex : BitVec 8) (fam : BitVec 2) (baud : Word) :
    (reqSetBaudResponse portIndex fam baud).status = some 0x02 ↔ RateRefused fam baud := by
  rw [reqSetBaudResponse, family_baudRate_unsupported_iff, withTolerance_unsupported_iff]
  simp only [Response.setResult_status, Response.emit_status, Response.ofStatus_status, ok_ne_unsupported,
    or_false]
  rfl

/-- REQ_CONFIGURE reports it for the refused rates too, once its other fields are legal
(42_control_requests.md R187). -/
theorem reqConfigureResponse_unsupported_iff (portIndex : BitVec 8) (fam : BitVec 2) (dbits : BitVec 4)
    (par : BitVec 3) (stop : BitVec 2) (brk : BitVec 1) (flow : BitVec 3) (dtr rts : BitVec 2) (baud : Word) :
    (reqConfigureResponse portIndex fam dbits par stop brk flow dtr rts baud).status = some 0x02 ↔
      RateRefused fam baud ∧ (lineConfigOf dbits par stop brk).isSome ∧ (flowModeOf flow).isSome ∧
        (lineSelOf dtr).isSome ∧ (lineSelOf rts).isSome := by
  rw [reqConfigureResponse, family_baudRate_unsupported_iff]
  simp only [withArgument_unsupported_iff, withTolerance_unsupported_iff, Response.setResult_status,
    apply_ite Response.status, Response.emit_status, Response.ofStatus_status, ite_self, ok_ne_unsupported,
    or_false, Option.isSome_iff_exists]
  constructor
  · rintro ⟨hfam, hbaud, c, hc, m, hm, d, hd, r, hr, htol⟩
    exact ⟨⟨hfam, hbaud, htol⟩, ⟨c, hc⟩, ⟨m, hm⟩, ⟨d, hd⟩, ⟨r, hr⟩⟩
  · rintro ⟨⟨hfam, hbaud, htol⟩, ⟨c, hc⟩, ⟨m, hm⟩, ⟨d, hd⟩, ⟨r, hr⟩⟩
    exact ⟨hfam, hbaud, c, hc, m, hm, d, hd, r, hr, htol⟩

/-! ### The statements on ENC_BAUD and on the tolerance -/

/-- Settles O20: the MASK and MATCH test of the opcode, then the checks on FAM and BAUD, then the result. -/
theorem encBaudFollowsItsRule : Obligations.EncBaudFollowsItsRule := by
  intro s tx rest hp hopc fam
  rw [← encBaudResponse_eq]
  exact step_of_opcode .encBaud hp hopc rfl

/-- Settles O25: the command answers `encBaudResponse`, whose checks are on FAM and BAUD only. -/
theorem encBaudFailsOnlyOnInvalidArguments : Obligations.EncBaudFailsOnlyOnInvalidArguments := by
  intro s tx rest fam hp
  have hexec : exec (.encBaud fam) s = .next (s.answered tx rest (encBaudResponse s.portIndex fam tx.baud)) :=
    answer_pure (fun tx => encBaudResponse s.portIndex fam tx.baud) hp
  rw [hexec, encBaudResponse_eq]
  refine ⟨fun hfam hbaud => ?_, fun hbad => ?_⟩
  · rw [if_neg ((famLegal_iff fam).mp hfam), if_neg (not_le.mpr hbaud)]
  · obtain hfam | hbaud := hbad
    · rw [if_pos hfam]
    · rw [if_pos hbaud, ite_self]

/-- `commandResponse_of_exec` at a known transaction. -/
theorem commandResponse_of_exec_cons {i : Instr} {s t : State} {tx : Transaction} {rest : List Transaction}
    (hp : s.presented = tx :: rest) (h : exec i s = .next t) :
    commandResponse s.portIndex s.maxPacket tx i = .ok t.lastResponse := by
  obtain ⟨tx₁, rest₁, hp₁, hr⟩ := commandResponse_of_exec h
  obtain ⟨rfl, rfl⟩ := List.cons.inj (hp.symm.trans hp₁)
  exact hr

/-- Settles O37: the responses of the three commands to the presented transaction, by `RateRefused`. -/
theorem toleranceIsCheckedWhereTheRateIsConsumed : Obligations.ToleranceIsCheckedWhereTheRateIsConsumed := by
  refine ⟨tolOk_iff, fun s te ts fam hte hts => ?_⟩
  obtain ⟨tx, rest, hp, henc⟩ := commandResponse_of_exec hte
  have hset := commandResponse_of_exec_cons hp hts
  rw [← Except.ok.inj henc, ← Except.ok.inj hset, hp, reqSetBaudResponse_unsupported_iff,
    ← encBaudResponse_outOfTolerance_iff s.portIndex]
  refine ⟨encBaudResponse_not_unsupported s.portIndex fam tx.baud, by simp, ?_⟩
  intro tc dbits par stop brk flow dtr rts htc
  have hconf := commandResponse_of_exec_cons hp htc
  rw [← Except.ok.inj hconf, reqConfigureResponse_unsupported_iff, encBaudResponse_outOfTolerance_iff]
  exact ⟨And.left, fun hwf href => ⟨href, isSome_fields_of_reqConfigure_wellFormed hwf⟩⟩

end Sys2Proof.Machine
end

section
/-!
# The commands that assemble control requests (42_control_requests.md R172 to R187)

Each command checks the fields it uses, in the order of its rule, and then emits its requests. The first part
treats the commands that use no field, the second the checks on FLOW, DTR and RTS with the values these fields
give, the third the tolerance check; the fourth and fifth write out the response of each command that uses a
field, and the last settles the statement of each command.
-/

namespace Sys2Proof.Machine

/-! ### Commands without a field -/

/-- An opcode that uses no field has one word, its MATCH (30_encoding.md R72). -/
theorem step_of_opcode_without_fields {s : State} {tx : Transaction} {rest : List Transaction} {r : Response}
    (op : Opcode) (hmask : op.mask = BitVec.allOnes 32) (hp : s.presented = tx :: rest)
    (hopc : tx.cmd.extractLsb' 0 8 = op.code)
    (hr : commandResponse s.portIndex s.maxPacket tx (op.assemble (CmdFields.ofWord tx.cmd)) = .ok r) :
    step s = .next (s.answered tx rest (if tx.cmd ≠ op.matchWord then statusOnly 0x03 else r)) := by
  have hstep := step_of_opcode op hp hopc hr
  rwa [hmask, BitVec.and_allOnes] at hstep

/-! ### The checks on FLOW, DTR and RTS -/

/-- Everything `flowModeOf` can do: the mode's value is the field in the high byte (30_encoding.md R80). -/
theorem flowModeOf_cases (flow : BitVec 3) :
    (flowModeOf flow = none ∧ ¬ (flow.toNat = 0 ∨ flow.toNat = 1 ∨ flow.toNat = 2 ∨ flow.toNat = 4)) ∨
      ∃ m, flowModeOf flow = some m ∧
        (flow.toNat = 0 ∨ flow.toNat = 1 ∨ flow.toNat = 2 ∨ flow.toNat = 4) ∧
        flowValue m = BitVec.ofNat 16 (flow.toNat * 256) := by
  unfold flowModeOf
  split
  case h_1 h => exact .inr ⟨.disable, rfl, by omega, by rw [h]; rfl⟩
  case h_2 h => exact .inr ⟨.rtsCts, rfl, by omega, by rw [h]; rfl⟩
  case h_3 h => exact .inr ⟨.dtrDsr, rfl, by omega, by rw [h]; rfl⟩
  case h_4 h => exact .inr ⟨.xonXoff, rfl, by omega, by rw [h]; rfl⟩
  case h_5 => exact .inl ⟨rfl, by simp only [imp_false] at *; omega⟩

/-- What a command that consumes a flow-control mode answers, when it uses the mode's value only. -/
theorem withArgument_flowModeOf (flow : BitVec 3) (respond : Half → Response) :
    withArgument (flowModeOf flow) (fun m => respond (flowValue m)) =
      if ¬ (flow.toNat = 0 ∨ flow.toNat = 1 ∨ flow.toNat = 2 ∨ flow.toNat = 4) then statusOnly 0x01
      else respond (BitVec.ofNat 16 (flow.toNat * 256)) := by
  obtain ⟨hm, hbad⟩ | ⟨m, hm, hlegal, hvalue⟩ := flowModeOf_cases flow
  · rw [hm, if_pos hbad]
    rfl
  · rw [hm, if_neg (not_not.mpr hlegal), withArgument_some, hvalue]

/-- The pattern of DTR for a legal selector; that of RTS is its double (42_control_requests.md R176).
`lineSelOf_cases` ties it to the model. -/
def selectorPattern (sel : Nat) : Nat := if sel = 0 then 0x0000 else if sel = 2 then 0x0100 else 0x0101

/-- Everything `lineSelOf` can do: only selector 1 is illegal, and only selector 0 leaves the line alone
(30_encoding.md R82, 42_control_requests.md R175, R176). -/
theorem lineSelOf_cases (sel : BitVec 2) :
    (lineSelOf sel = none ∧ sel.toNat = 1) ∨
      ∃ d, lineSelOf sel = some d ∧ sel.toNat ≠ 1 ∧ (d = .keep ↔ sel.toNat = 0) ∧
        (linePattern dtrMask d).toNat = selectorPattern sel.toNat ∧
        (linePattern rtsMask d).toNat = 2 * selectorPattern sel.toNat := by
  unfold lineSelOf
  split
  case h_1 h => exact .inr ⟨.keep, rfl, by omega, by simp [h], by rw [h]; rfl, by rw [h]; rfl⟩
  case h_2 h => exact .inr ⟨.low, rfl, by omega, by simp [h], by rw [h]; rfl, by rw [h]; rfl⟩
  case h_3 h => exact .inr ⟨.high, rfl, by omega, by simp [h], by rw [h]; rfl, by rw [h]; rfl⟩
  case h_4 => exact .inl ⟨rfl, by simp only [imp_false] at *; omega⟩

/-- The patterns of the two lines share no bit, so their OR is a sum (42_control_requests.md R176). -/
theorem modemValue_toNat (d r : LineSel) :
    (modemValue d r).toNat = (linePattern dtrMask d).toNat + (linePattern rtsMask r).toNat := by
  cases d <;> cases r <;> rfl

/-- What a command that consumes both selectors answers, when it uses only whether a line is selected and the
modem value. -/
theorem withArgument_lineSelOf (dtr rts : BitVec 2) (respond : Bool → Half → Response) :
    (withArgument (lineSelOf dtr) fun d => withArgument (lineSelOf rts) fun r =>
        respond (bothKeep d r) (modemValue d r)) =
      if dtr.toNat = 1 then statusOnly 0x01
      else if rts.toNat = 1 then statusOnly 0x01
      else respond (decide (dtr.toNat = 0 ∧ rts.toNat = 0))
        (BitVec.ofNat 16 (selectorPattern dtr.toNat + 2 * selectorPattern rts.toNat)) := by
  obtain ⟨hd, hbad⟩ | ⟨d, hd, hdlegal, hdkeep, hdpat, _⟩ := lineSelOf_cases dtr
  · rw [hd, if_pos hbad]
    rfl
  rw [hd, if_neg hdlegal, withArgument_some]
  obtain ⟨hr, hbad⟩ | ⟨r, hr, hrlegal, hrkeep, _, hrpat⟩ := lineSelOf_cases rts
  · rw [hr, if_pos hbad]
    rfl
  rw [hr, if_neg hrlegal, withArgument_some]
  have hkeep : bothKeep d r = decide (dtr.toNat = 0 ∧ rts.toNat = 0) := by simp [bothKeep, hdkeep, hrkeep]
  rw [hkeep, ← hdpat, ← hrpat, ← modemValue_toNat, BitVec.ofNat_toNat, BitVec.setWidth_eq]

/-! ### The tolerance check -/

/-- `TOL_OK` fails when the deviation exceeds 3% of the requested rate (41_baud_encoding.md R156). -/
theorem tolOk_eq_false_iff (req ach : Nat) :
    tolOk req ach = false ↔ 3 * (req : Int) < 100 * |(ach : Int) - req| := by
  rw [← absDiff_cast, tolOk, decide_eq_false_iff_not, tolPct]
  omega

/-- What a command that consumes the result of a positive rate answers (60_exceptions.md R234). -/
theorem withTolerance_baudEncode {baud : Word} (hbaud : ¬ baud.toInt ≤ 0) (fam : Family)
    (portIndex : BitVec 8) (body : BaudResult → Response) :
    withTolerance (baudEncode baud.toInt.toNat fam portIndex) body =
      if 3 * baud.toInt < 100 * |((baudEncode baud.toInt.toNat fam portIndex).ach : Int) - baud.toInt| then
        statusOnly 0x02
      else body (baudEncode baud.toInt.toNat fam portIndex) := by
  have hreq : ((baudEncode baud.toInt.toNat fam portIndex).req : Int) = baud.toInt :=
    Int.toNat_of_nonneg (le_of_not_ge hbaud)
  obtain ⟨htol, hr⟩ | ⟨htol, hr⟩ := withTolerance_cases (baudEncode baud.toInt.toNat fam portIndex) body
  · rw [tolOk_eq_false_iff, hreq] at htol
    rw [hr, if_pos htol]
    rfl
  · rw [← Bool.not_eq_false, tolOk_eq_false_iff, hreq] at htol
    rw [hr, if_neg htol]

/-! ### The response of each command that uses a field -/

/-- REQ_MODEM_CTRL: the checks on the selectors, then the case that selects no line, then the request
(42_control_requests.md R177). -/
theorem reqModemCtrlResponse_eq (dtr rts : BitVec 2) :
    reqModemCtrlResponse dtr rts =
      if dtr.toNat = 1 then statusOnly 0x01
      else if rts.toNat = 1 then statusOnly 0x01
      else if dtr.toNat = 0 ∧ rts.toNat = 0 then statusOnly 0x01
      else okRequests [⟨.out, 0x01,
        BitVec.ofNat 16 (selectorPattern dtr.toNat + 2 * selectorPattern rts.toNat), 0x0000, 0⟩] := by
  have hchecks := withArgument_lineSelOf dtr rts fun noLine v =>
    if noLine then statusOnly 0x01 else okRequests [outRequest sioSetModemCtrl v 0x0000]
  simp only [decide_eq_true_eq] at hchecks
  exact hchecks

/-- REQ_FLOW_CTRL: the check on FLOW, then the request (42_control_requests.md R179). -/
theorem reqFlowCtrlResponse_eq (flow : BitVec 3) :
    reqFlowCtrlResponse flow =
      if ¬ (flow.toNat = 0 ∨ flow.toNat = 1 ∨ flow.toNat = 2 ∨ flow.toNat = 4) then statusOnly 0x01
      else okRequests [⟨.out, 0x02, BitVec.ofNat 16 (flow.toNat * 256), 0x0000, 0⟩] :=
  withArgument_flowModeOf flow fun v => okRequests [outRequest sioSetFlowCtrl v 0x0000]

/-- REQ_SET_BAUD: the checks on FAM and BAUD, then the tolerance of a rate now known to be positive, then the
request (42_control_requests.md R181). -/
theorem reqSetBaudResponse_eq (portIndex : BitVec 8) (fam : BitVec 2) (baud : Word) :
    let b := baudEncode baud.toInt.toNat (famValue fam) portIndex
    reqSetBaudResponse portIndex fam baud =
      if fam = 3 then statusOnly 0x01
      else if baud.toInt ≤ 0 then statusOnly 0x01
      else if 3 * baud.toInt < 100 * |(b.ach : Int) - baud.toInt| then statusOnly 0x02
      else okBaud b [⟨.out, 0x03, b.value, b.index, 0⟩] := by
  intro b
  rw [reqSetBaudResponse, withArgument_family_baudRate]
  refine ite_congr rfl (fun _ => rfl) fun _ => ite_congr rfl (fun _ => rfl) fun hbaud => ?_
  exact withTolerance_baudEncode hbaud _ _ _

/-- REQ_SET_LINE: the checks on the line fields, then the request (42_control_requests.md R183). -/
theorem reqSetLineResponse_eq (dbits : BitVec 4) (par : BitVec 3) (stop : BitVec 2) (brk : BitVec 1) :
    reqSetLineResponse dbits par stop brk =
      if ¬ (dbits.toNat = 7 ∨ dbits.toNat = 8) then statusOnly 0x01
      else if 4 < par.toNat then statusOnly 0x01
      else if 2 < stop.toNat then statusOnly 0x01
      else okRequests [⟨.out, 0x04, BitVec.ofNat 16 (dbits.toNat + par.toNat * 0x100
        + (if stop.toNat = 0 then 0 else 0x0800) + brk.toNat * 0x4000), 0x0000, 0⟩] :=
  withArgument_lineConfigOf dbits par stop brk fun v => okRequests [outRequest sioSetData v 0x0000]

/-! ### The response of REQ_CONFIGURE -/

/-- The part of REQ_CONFIGURE that follows the checks on FAM, BAUD and the line fields, as a function of the
BaudResult and the packed line value; `reqConfigureResponse_eq_afterLine` ties it to the model. -/
def configureAfterLine (b : BaudResult) (flow : BitVec 3) (dtr rts : BitVec 2) (line : Half) : Response :=
  withArgument (flowModeOf flow) fun m =>
  withArgument (lineSelOf dtr) fun d =>
  withArgument (lineSelOf rts) fun r =>
  withTolerance b fun res =>
  okBaud res ([outRequest sioSetData line 0x0000, baudRequest res, flowRequest m] ++
    if bothKeep d r then [] else [modemRequest d r])

theorem reqConfigureResponse_eq_afterLine (portIndex : BitVec 8) (fam : BitVec 2) (dbits : BitVec 4)
    (par : BitVec 3) (stop : BitVec 2) (brk : BitVec 1) (flow : BitVec 3) (dtr rts : BitVec 2) (baud : Word) :
    reqConfigureResponse portIndex fam dbits par stop brk flow dtr rts baud =
      withArgument (familyOf fam) fun f =>
      withArgument (baudRateOf baud) fun b =>
      withArgument (lineConfigOf dbits par stop brk) fun c =>
      configureAfterLine (baudEncode b f portIndex) flow dtr rts (lineEncode c) := by
  have hmodem (three : Response) (noLine : Bool) (q : ControlRequest) :
      (if noLine then three else three.emit q) = { three with reqs := three.reqs ++ if noLine then [] else [q] } := by
    cases noLine <;> simp [Response.emit]
  simp only [reqConfigureResponse, hmodem]
  rfl

/-- The checks on FLOW, DTR and RTS, then the tolerance check, then the three or four requests. -/
theorem configureAfterLine_eq (b : BaudResult) (flow : BitVec 3) (dtr rts : BitVec 2) (line : Half) :
    configureAfterLine b flow dtr rts line =
      if ¬ (flow.toNat = 0 ∨ flow.toNat = 1 ∨ flow.toNat = 2 ∨ flow.toNat = 4) then statusOnly 0x01
      else if dtr.toNat = 1 then statusOnly 0x01
      else if rts.toNat = 1 then statusOnly 0x01
      else withTolerance b fun res => okBaud res (
        [⟨.out, 0x04, line, 0x0000, 0⟩, ⟨.out, 0x03, res.value, res.index, 0⟩,
          ⟨.out, 0x02, BitVec.ofNat 16 (flow.toNat * 256), 0x0000, 0⟩] ++
        if dtr.toNat = 0 ∧ rts.toNat = 0 then []
        else [⟨.out, 0x01,
          BitVec.ofNat 16 (selectorPattern dtr.toNat + 2 * selectorPattern rts.toNat), 0x0000, 0⟩]) := by
  obtain ⟨hm, hbad⟩ | ⟨m, hm, hlegal, hvalue⟩ := flowModeOf_cases flow
  · rw [configureAfterLine, hm, if_pos hbad]
    rfl
  rw [if_neg (not_not.mpr hlegal), ← hvalue, configureAfterLine, hm, withArgument_some]
  have hchecks := withArgument_lineSelOf dtr rts fun noLine v =>
    withTolerance b fun res => okBaud res ([outRequest sioSetData line 0x0000, baudRequest res, flowRequest m] ++
      if noLine then [] else [outRequest sioSetModemCtrl v 0x0000])
  simp only [decide_eq_true_eq] at hchecks
  exact hchecks

/-! ### The statements on the commands -/

/-- Settles O12: the only word of the opcode is its MATCH. -/
theorem reqResetFollowsItsRule : Obligations.ReqResetFollowsItsRule := by
  intro s tx rest hp hopc
  exact step_of_opcode_without_fields .reqReset rfl hp hopc rfl

/-- Settles O13: the MASK and MATCH test of the opcode, then `reqModemCtrlResponse_eq`. -/
theorem reqModemCtrlFollowsItsRule : Obligations.ReqModemCtrlFollowsItsRule := by
  intro s tx rest hp hopc dtr rts pat
  exact step_of_opcode .reqModemCtrl hp hopc (congrArg Except.ok (reqModemCtrlResponse_eq _ _))

/-- Settles O14: the MASK and MATCH test of the opcode, then `reqFlowCtrlResponse_eq`. -/
theorem reqFlowCtrlFollowsItsRule : Obligations.ReqFlowCtrlFollowsItsRule := by
  intro s tx rest hp hopc flow
  exact step_of_opcode .reqFlowCtrl hp hopc (congrArg Except.ok (reqFlowCtrlResponse_eq _))

/-- Settles O15: the MASK and MATCH test of the opcode, then `reqSetBaudResponse_eq`. -/
theorem reqSetBaudFollowsItsRule : Obligations.ReqSetBaudFollowsItsRule := by
  intro s tx rest hp hopc fam b
  exact step_of_opcode .reqSetBaud hp hopc (congrArg Except.ok (reqSetBaudResponse_eq _ _ _))

/-- Settles O16: the MASK and MATCH test of the opcode, then `reqSetLineResponse_eq`. -/
theorem reqSetLineFollowsItsRule : Obligations.ReqSetLineFollowsItsRule := by
  intro s tx rest hp hopc dbits par stop brk
  exact step_of_opcode .reqSetLine hp hopc (congrArg Except.ok (reqSetLineResponse_eq _ _ _ _))

/-- Settles O17: the only word of the opcode is its MATCH. -/
theorem reqPollStatusFollowsItsRule : Obligations.ReqPollStatusFollowsItsRule := by
  intro s tx rest hp hopc
  exact step_of_opcode_without_fields .reqPollStatus rfl hp hopc rfl

/-- Settles O18: the MASK and MATCH test of the opcode; then the checks on FAM and BAUD, on the line fields,
and on FLOW, DTR and RTS; then the tolerance of a rate now known to be positive. -/
theorem reqConfigureFollowsItsRule : Obligations.ReqConfigureFollowsItsRule := by
  intro s tx rest hp hopc fam dbits par stop brk flow dtr rts pat b
  refine step_of_opcode .reqConfigure hp hopc (congrArg Except.ok ?_)
  rw [reqConfigureResponse_eq_afterLine, withArgument_family_baudRate]
  refine ite_congr rfl (fun _ => rfl) fun _ => ite_congr rfl (fun _ => rfl) fun hbaud => ?_
  rw [withArgument_lineConfigOf _ _ _ _ (configureAfterLine _ _ _ _), configureAfterLine_eq,
    withTolerance_baudEncode hbaud]
  rfl

end Sys2Proof.Machine
end

section
/-!
# The frame header stripper (43_frame_strip.md R212 to R215)

The payload is one contiguous part of the frame. The first part names it and gives its length and its bytes;
the second writes out the response of STRIP_FRAME; the third settles the statements on the command.
-/

namespace Sys2Proof.Machine

/-! ### The payload of a frame -/

/-- The bytes of a frame after the header and below the count (43_frame_strip.md R214);
`Memory.readRange_payload` ties it to the model. -/
def Memory.payload (m : Memory) (n : Nat) : List Byte := (m.bytes.take n).drop 2

/-- On a count inside the frame, the read that STRIP_FRAME makes succeeds and gives the payload. -/
theorem Memory.readRange_payload (m : Memory) {n : Nat} (hle : 2 ≤ n) (hn : n ≤ m.flen) :
    m.readRange headerLen (n - headerLen) = .ok (m.payload n) :=
  (m.readRange_ok (n - 2) 2 (by omega)).trans (congrArg Except.ok List.drop_take.symm)

/-- The header is all that a payload lacks of the count (43_frame_strip.md R214). -/
theorem Memory.payload_length (m : Memory) {n : Nat} (hn : n ≤ m.flen) : (m.payload n).length = n - 2 := by
  rw [Memory.payload, List.length_drop, List.length_take, Memory.bytes_length, min_eq_left hn]

/-- Byte `j` of the payload is byte `2 + j` of the frame (43_frame_strip.md R214). -/
theorem Memory.payload_eq_map (m : Memory) {n : Nat} (hn : n ≤ m.flen) :
    m.payload n = (List.range (n - 2)).map fun j => m.byteAt (2 + j) := by
  apply List.ext_getElem
  · rw [m.payload_length hn, List.length_map, List.length_range]
  · intro j _ _
    simp [Memory.payload]

/-! ### The response of the command -/

/-- The checks on FLEN and NREAD, then the frame too short for a header, then the payload. -/
theorem stripFrameResponse_eq (maxPacket : Half) (frame : Memory) (nread : Half) :
    stripFrameResponse maxPacket frame nread = .ok (
      if maxPacket.toNat < frame.flen then statusOnly 0x01
      else if frame.flen < nread.toNat then statusOnly 0x01
      else if nread.toNat < 2 then payloadResponse 0x04 []
      else payloadResponse 0x00 (frame.payload nread.toNat)) := by
  unfold stripFrameResponse nreadOperand
  by_cases hflen : maxPacket.toNat < frame.flen
  · rw [if_pos hflen, if_pos hflen]
    rfl
  rw [if_neg hflen, if_neg hflen]
  by_cases hcount : frame.flen < nread.toNat
  · rw [if_pos hcount, if_pos hcount]
    rfl
  rw [if_neg hcount, if_neg hcount]
  by_cases hshort : nread.toNat < 2
  · rw [if_pos hshort, if_pos (show nread.toNat < headerLen from hshort)]
    rfl
  have hn := not_lt.mp hcount
  rw [if_neg hshort, if_neg (show ¬ nread.toNat < headerLen from hshort),
    frame.readRange_payload (not_lt.mp hshort) hn, payloadResponse, frame.payload_length hn]
  rfl

/-! ### The statements on STRIP_FRAME -/

/-- Settles O21: the only word of the opcode is its MATCH; a count that passes the checks is inside the frame,
so the payload is the bytes at the addresses from 2 up to it. -/
theorem stripFrameFollowsItsRule : Obligations.StripFrameFollowsItsRule := by
  intro s tx rest hp hopc n
  refine step_of_opcode_without_fields .stripFrame rfl hp hopc
    ((stripFrameResponse_eq _ _ _).trans (congrArg Except.ok ?_))
  refine ite_congr rfl (fun _ => rfl) fun _ => ite_congr rfl (fun _ => rfl) fun hcount => ?_
  rw [tx.frame.payload_eq_map (not_lt.mp hcount)]

/-- Settles O27: an accepted frame passes the checks on FLEN and NREAD. -/
theorem stripFrameCompletesOnAcceptedFrames : Obligations.StripFrameCompletesOnAcceptedFrames := by
  intro s tx rest hp hflen hcount
  rw [exec_stripFrame]
  refine answer_cons hp ?_
  rw [stripFrameResponse_eq, if_neg (not_lt.mpr hflen), if_neg (not_lt.mpr hcount)]
  rfl

end Sys2Proof.Machine
end

section
/-!
# The status of a response (60_exceptions.md R230 to R236)

Every command makes its checks in one order: its arguments, then the tolerance of its rate, then, for
STRIP_FRAME, the length of its frame. After the codes, the first parts say what a rejected word and any other
transaction answer, and what an error status leaves in a response. `Verdict` then states the outcome of the
checks once, as a relation that the checking operations build up, and holds of every command. The last parts say
what each cause of a status is a fact about and which cause is reported, and settle the statements.
-/

namespace Sys2Proof.Machine

/-! ### The status codes -/

/-- The five codes differ (60_exceptions.md R230). -/
theorem Status.code_injective : Function.Injective Status.code := by
  intro st st' h
  revert h
  cases st <;> cases st' <;> decide

theorem Status.code_le (st : Status) : st.code.toNat ≤ 4 := by cases st <;> decide

theorem Status.isError_iff_errorCode (st : Status) : st.isError = true ↔ errorCode st.code := by
  cases st <;> simp [Status.isError, Status.code, errorCode]

/-! ### Words that spell no command -/

/-- A word without a known opcode, or that fails the MASK and MATCH test of its opcode, does not decode
(30_encoding.md R72, R83). -/
theorem decode_error_of_illegal {w : Word}
    (h : (∀ op : Opcode, w.extractLsb' 0 8 ≠ op.code) ∨
      ∃ op : Opcode, w.extractLsb' 0 8 = op.code ∧ w &&& op.mask ≠ op.matchWord) :
    ∃ why, decode w = .error why := by
  obtain hnone | ⟨op, hopc, hmatch⟩ := h
  · obtain ⟨op, hopc, _⟩ | ⟨op, hopc, _⟩ | ⟨_, hd⟩ := decode_cases w
    · exact absurd hopc (hnone op)
    · exact absurd hopc (hnone op)
    · exact ⟨_, hd⟩
  · exact ⟨_, (decode_of_opcode op hopc).trans (if_neg hmatch)⟩

theorem transactionResponse_of_decode_error {portIndex : BitVec 8} {maxPacket : Half} {tx : Transaction}
    {why : DecodeError} (hd : decode tx.cmd = .error why) :
    transactionResponse portIndex maxPacket tx = .ok (statusOnly 0x03) := by
  rw [transactionResponse, hd]
  rfl

theorem transactionResponse_of_decode_ok {portIndex : BitVec 8} {maxPacket : Half} {tx : Transaction}
    {i : Instr} (hd : decode tx.cmd = .ok i) :
    transactionResponse portIndex maxPacket tx = commandResponse portIndex maxPacket tx i := by
  rw [transactionResponse, hd]

/-- Everything a step answers: ILLEGAL_COMMAND alone, or the response of the decoded command. -/
theorem lastResponse_cases {s t : State} {tx : Transaction} {rest : List Transaction}
    (hp : s.presented = tx :: rest) (h : step s = .next t) :
    (∃ why, decode tx.cmd = .error why ∧ t.lastResponse = statusOnly 0x03) ∨
      ∃ i, decode tx.cmd = .ok i ∧
        commandResponse s.portIndex s.maxPacket tx i = .ok t.lastResponse := by
  have hr := transactionResponse_of_step hp h
  cases hd : decode tx.cmd with
  | error why =>
      rw [transactionResponse_of_decode_error hd] at hr
      exact .inl ⟨why, rfl, (Except.ok.inj hr).symm⟩
  | ok i => exact .inr ⟨i, rfl, (transactionResponse_of_decode_ok hd).symm.trans hr⟩

/-! ### What an error status leaves -/

/-- A step changes nothing but the transaction it answers (20_memory.md R58). -/
theorem eq_answered_of_step {s t : State} {tx : Transaction} {rest : List Transaction}
    (hp : s.presented = tx :: rest) (h : step s = .next t) : t = s.answered tx rest t.lastResponse := by
  have hstep := (step_eq_answer_transactionResponse hp).trans
    (answer_cons hp (transactionResponse_of_step hp h))
  exact Host.Outcome.next.inj (h.symm.trans hstep)

/-- Only an OK response holds requests (42_control_requests.md R171). -/
theorem ResponseForm.reqs_eq_nil {i : Instr} {r : Response} {c : Byte} (h : ResponseForm i r)
    (hc : r.status = some c) (hok : c ≠ 0x00) : r.reqs = [] := by
  cases h with
  | raised | lineValue | payload => rfl
  | requests | baud => exact absurd (Option.some.inj hc).symm hok

/-- The response of a step with an error status holds the status alone (60_exceptions.md R236). -/
theorem lastResponse_eq_statusOnly {s t : State} {tx : Transaction} {rest : List Transaction} {c : Byte}
    (hp : s.presented = tx :: rest) (h : step s = .next t) (hc : t.lastResponse.status = some c)
    (he : errorCode c) : t.lastResponse = statusOnly c := by
  obtain ⟨_, _, hr⟩ | ⟨i, _, hr⟩ := lastResponse_cases hp h
  · rw [hr] at hc ⊢
    rw [← Option.some.inj hc]
  · exact (commandResponse_form hr).eq_statusOnly_of_errorCode hc he

/-- The response of a step with a status other than OK holds no request (42_control_requests.md R171). -/
theorem lastResponse_reqs_eq_nil {s t : State} {tx : Transaction} {rest : List Transaction} {c : Byte}
    (hp : s.presented = tx :: rest) (h : step s = .next t) (hc : t.lastResponse.status = some c)
    (hok : c ≠ 0x00) : t.lastResponse.reqs = [] := by
  obtain ⟨_, _, hr⟩ | ⟨i, _, hr⟩ := lastResponse_cases hp h
  · rw [hr]
    rfl
  · exact (commandResponse_form hr).reqs_eq_nil hc hok

/-! ### The outcome of a command's checks -/

/-- The outcome of a command's checks in their order (60_exceptions.md R235): INVALID_ARGUMENT unless the
arguments are `legal`, then UNSUPPORTED_BAUD when the rate is `refused`, then a completion with status `st`.
`commandResponse_verdict` ties it to the model. -/
inductive Verdict (legal refused : Prop) (st : Status) : Response → Prop where
  | illegal (h : ¬ legal) : Verdict legal refused st (raise .invalidArgument)
  | refused (hl : legal) (h : refused) : Verdict legal refused st (raise .unsupportedBaud)
  | completed (r : Response) (hl : legal) (hr : ¬ refused) (h : r.status = some st.code) :
      Verdict legal refused st r

namespace Verdict
variable {legal legal' refused : Prop} {st : Status} {r : Response}

theorem of_legal_iff (h : Verdict legal refused st r) (hiff : legal ↔ legal') : Verdict legal' refused st r :=
  propext hiff ▸ h

/-- A check on an argument comes before the checks of the body. -/
theorem withArgument {α : Type} {arg : Option α} {body : α → Response}
    (h : ∀ a, arg = some a → Verdict legal refused st (body a)) :
    Verdict (arg.isSome = true ∧ legal) refused st (Machine.withArgument arg body) := by
  obtain ⟨rfl, hr⟩ | ⟨a, rfl, hr⟩ := withArgument_cases arg body
  · rw [hr]
    exact .illegal (by simp)
  · rw [hr]
    exact (h a rfl).of_legal_iff (by simp)

/-- A command with one check and no tolerance check. -/
theorem withArgument_completed {α : Type} {arg : Option α} {body : α → Response} (hr : ¬ refused)
    (h : ∀ a, (body a).status = some st.code) :
    Verdict (arg.isSome = true) refused st (Machine.withArgument arg body) :=
  (withArgument fun a _ => .completed _ trivial hr (h a)).of_legal_iff (and_iff_left trivial)

/-- The tolerance check comes last. -/
theorem withTolerance {b : BaudResult} {body : BaudResult → Response}
    (htol : tolOk b.req b.ach = false ↔ refused) (hbody : (body b).status = some st.code) :
    Verdict True refused st (Machine.withTolerance b body) := by
  obtain ⟨hfail, hr⟩ | ⟨hpass, hr⟩ := withTolerance_cases b body
  · rw [hr]
    exact .refused trivial (htol.mp hfail)
  · rw [hr]
    exact .completed _ trivial (fun h => by simp [htol.mpr h] at hpass) hbody

end Verdict

theorem isSome_familyOf (fam : BitVec 2) : (familyOf fam).isSome = famLegal fam := by
  revert fam
  decide

theorem isSome_baudRateOf (baud : Word) : (baudRateOf baud).isSome = true ↔ 0 < baud.toInt := by
  rw [baudRateOf_eq]
  split <;> simp <;> omega

/-- The tolerance check at the family and the rate of legal operands (60_exceptions.md R234). -/
theorem tolOk_baudEncode_iff {tx : Transaction} {fam : BitVec 2} {f : Family} {b : Nat}
    (portIndex : BitVec 8) (hf : familyOf fam = some f) (hb : baudRateOf tx.baud = some b) :
    tolOk (baudEncode b f portIndex).req (baudEncode b f portIndex).ach = false ↔
      rateOutOfTolerance tx fam := by
  have hpos : 0 < tx.baud.toInt := (isSome_baudRateOf _).mp (Option.isSome_of_mem hb)
  rw [baudRateOf_eq, if_neg (not_le.mpr hpos)] at hb
  obtain rfl := Option.some.inj hb
  have hfam : f = famValue fam := by
    rw [familyOf_eq] at hf
    split at hf
    · cases hf
    · exact (Option.some.inj hf).symm
  rw [tolOk_eq_false_iff, rateOutOfTolerance, baudEncode, Int.toNat_of_nonneg hpos.le, hfam]

/-- The rate is out of tolerance and the command checks it; `hasCause_unsupportedBaud_iff` ties it to the
cause. -/
def RateCause (tx : Transaction) (i : Instr) : Prop :=
  consumesBaud i = true ∧ ∃ fam, baudField i = some fam ∧ rateOutOfTolerance tx fam

theorem not_rateCause {tx : Transaction} {i : Instr} (h : consumesBaud i = false) : ¬ RateCause tx i := by
  simp [RateCause, h]

theorem rateCause_iff {tx : Transaction} {i : Instr} {fam : BitVec 2} (hc : consumesBaud i = true)
    (hfam : baudField i = some fam) : RateCause tx i ↔ rateOutOfTolerance tx fam := by
  simp [RateCause, hc, hfam]

/-- The status of a command that no check stops: only STRIP_FRAME has one beside OK (43_frame_strip.md R213);
`commandResponse_verdict` ties it to the model. -/
def completionStatus (tx : Transaction) (i : Instr) : Status :=
  if i = .stripFrame ∧ tx.nread.toNat < 2 then .shortFrame else .ok

theorem completionStatus_eq_ok {tx : Transaction} {i : Instr} (h : i ≠ .stripFrame) :
    completionStatus tx i = .ok :=
  if_neg fun hi => h hi.1

theorem completionStatus_stripFrame (tx : Transaction) :
    completionStatus tx .stripFrame = if tx.nread.toNat < 2 then .shortFrame else .ok := by
  simp [completionStatus]

/-- Only STRIP_FRAME has arguments beside its fields and BAUD. -/
theorem argumentsLegal_iff {maxPacket : Half} {tx : Transaction} {i : Instr} (h : i ≠ .stripFrame) :
    argumentsLegal maxPacket tx i ↔ i.wellFormed = true ∧ ((baudField i).isSome → 0 < tx.baud.toInt) := by
  simp [argumentsLegal, h]

theorem eq_keep_iff {sel : BitVec 2} {d : LineSel} (h : lineSelOf sel = some d) :
    d = .keep ↔ sel.toNat = 0 := by
  have hkeep : ∀ sel : BitVec 2, lineSelOf sel = some .keep ↔ sel.toNat = 0 := by decide
  rw [← hkeep, h, Option.some.injEq]

/-- No line is selected exactly when both selectors say so (42_control_requests.md R177). -/
theorem bothKeep_eq_not_someLineSelected {dtr rts : BitVec 2} {d r : LineSel} (hd : lineSelOf dtr = some d)
    (hr : lineSelOf rts = some r) : bothKeep d r = !someLineSelected dtr rts := by
  simp [bothKeep, someLineSelected, eq_keep_iff hd, eq_keep_iff hr]

/-! ### The outcome of each command -/

/-- The selectors of REQ_MODEM_CTRL, then the case that selects no line (42_control_requests.md R177). -/
theorem reqModemCtrlResponse_verdict {refused : Prop} (hr : ¬ refused) (dtr rts : BitVec 2) :
    Verdict ((Instr.reqModemCtrl dtr rts).wellFormed = true) refused .ok (reqModemCtrlResponse dtr rts) := by
  have hchecks : Verdict ((lineSelOf dtr).isSome = true ∧ (lineSelOf rts).isSome = true ∧
      someLineSelected dtr rts = true) refused .ok (reqModemCtrlResponse dtr rts) := by
    refine .withArgument fun d hd => .withArgument fun r hrts => ?_
    rw [bothKeep_eq_not_someLineSelected hd hrts]
    cases hsel : someLineSelected dtr rts with
    | false => exact .illegal (by simp)
    | true => exact .completed _ rfl hr rfl
  refine hchecks.of_legal_iff ?_
  simp [Instr.wellFormed, isSome_lineSelOf, and_assoc]

/-- All the checks on arguments of REQ_CONFIGURE come before the tolerance (42_control_requests.md R187). -/
theorem reqConfigureResponse_verdict (portIndex : BitVec 8) (tx : Transaction) (fam : BitVec 2)
    (dbits : BitVec 4) (par : BitVec 3) (stop : BitVec 2) (brk : BitVec 1) (flow : BitVec 3)
    (dtr rts : BitVec 2) :
    Verdict ((Instr.reqConfigure fam dbits par stop brk flow dtr rts).wellFormed = true ∧ 0 < tx.baud.toInt)
      (rateOutOfTolerance tx fam) .ok
      (reqConfigureResponse portIndex fam dbits par stop brk flow dtr rts tx.baud) := by
  have hchecks : Verdict ((familyOf fam).isSome = true ∧ (baudRateOf tx.baud).isSome = true ∧
      (lineConfigOf dbits par stop brk).isSome = true ∧ (flowModeOf flow).isSome = true ∧
      (lineSelOf dtr).isSome = true ∧ (lineSelOf rts).isSome = true ∧ True)
      (rateOutOfTolerance tx fam) .ok
      (reqConfigureResponse portIndex fam dbits par stop brk flow dtr rts tx.baud) := by
    refine .withArgument fun f hf => .withArgument fun b hb => .withArgument fun c _ =>
      .withArgument fun m _ => .withArgument fun d _ => .withArgument fun r _ =>
      .withTolerance (tolOk_baudEncode_iff portIndex hf hb) ?_
    dsimp only
    split <;> rfl
  refine hchecks.of_legal_iff ?_
  rw [isSome_familyOf, isSome_baudRateOf, isSome_lineConfigOf, isSome_flowModeOf, isSome_lineSelOf,
    isSome_lineSelOf]
  simp only [Instr.wellFormed, Bool.and_eq_true]
  tauto

/-- STRIP_FRAME checks the length of its buffer and its count, and then the header (43_frame_strip.md R212,
R213). -/
theorem stripFrameResponse_verdict {maxPacket : Half} {tx : Transaction} {refused : Prop} {r : Response}
    (hr : ¬ refused) (h : stripFrameResponse maxPacket tx.frame tx.nread = .ok r) :
    Verdict (tx.frame.flen ≤ maxPacket.toNat ∧ tx.nread.toNat ≤ tx.frame.flen) refused
      (completionStatus tx .stripFrame) r := by
  obtain rfl := Except.ok.inj ((stripFrameResponse_eq _ _ _).symm.trans h)
  split
  · exact .illegal (by omega)
  split
  · exact .illegal (by omega)
  rw [completionStatus_stripFrame]
  split
  · exact .completed _ (by omega) hr rfl
  · exact .completed _ (by omega) hr rfl

/-- The outcome of every command's checks (60_exceptions.md R232 to R235). -/
theorem commandResponse_verdict {portIndex : BitVec 8} {maxPacket : Half} {tx : Transaction} {i : Instr}
    {r : Response} (h : commandResponse portIndex maxPacket tx i = .ok r) :
    Verdict (argumentsLegal maxPacket tx i) (RateCause tx i) (completionStatus tx i) r := by
  by_cases hstrip : i = .stripFrame
  · subst hstrip
    exact (stripFrameResponse_verdict (not_rateCause rfl) h).of_legal_iff
      (by simp [argumentsLegal, Instr.wellFormed, baudField])
  rw [completionStatus_eq_ok hstrip]
  refine Verdict.of_legal_iff ?_ (argumentsLegal_iff hstrip).symm
  cases i with
  | reqReset =>
    cases h
    exact .completed _ (by simp [Instr.wellFormed, baudField]) (not_rateCause rfl) rfl
  | reqModemCtrl dtr rts =>
    cases h
    exact (reqModemCtrlResponse_verdict (not_rateCause rfl) dtr rts).of_legal_iff (by simp [baudField])
  | reqFlowCtrl flow =>
    cases h
    exact (Verdict.withArgument_completed (not_rateCause rfl) fun _ => rfl).of_legal_iff
      (by simp [Instr.wellFormed, baudField, isSome_flowModeOf])
  | reqSetBaud fam =>
    cases h
    rw [rateCause_iff rfl rfl]
    exact Verdict.of_legal_iff (.withArgument fun f hf => .withArgument fun b hb =>
        .withTolerance (tolOk_baudEncode_iff portIndex hf hb) rfl)
      (by simp [Instr.wellFormed, baudField, isSome_familyOf, isSome_baudRateOf])
  | reqSetLine dbits par stop brk =>
    cases h
    exact (Verdict.withArgument_completed (not_rateCause rfl) fun _ => rfl).of_legal_iff
      (by simp [Instr.wellFormed, baudField, isSome_lineConfigOf])
  | reqPollStatus =>
    cases h
    exact .completed _ (by simp [Instr.wellFormed, baudField]) (not_rateCause rfl) rfl
  | reqConfigure fam dbits par stop brk flow dtr rts =>
    cases h
    rw [rateCause_iff rfl rfl]
    exact (reqConfigureResponse_verdict portIndex tx fam dbits par stop brk flow dtr rts).of_legal_iff
      (by simp [baudField])
  | encLine dbits par stop brk =>
    cases h
    exact (Verdict.withArgument_completed (not_rateCause rfl) fun _ => rfl).of_legal_iff
      (by simp [Instr.wellFormed, baudField, isSome_lineConfigOf])
  | encBaud fam =>
    cases h
    exact Verdict.of_legal_iff (.withArgument fun f _ => .withArgument fun b _ =>
        .completed _ trivial (not_rateCause rfl) rfl)
      (by simp [Instr.wellFormed, baudField, isSome_familyOf, isSome_baudRateOf])
  | stripFrame => exact absurd rfl hstrip

/-! ### The causes of a transaction -/

section causes
variable {maxPacket : Half} {tx : Transaction}

theorem hasCause_illegalCommand_iff :
    hasCause maxPacket tx .illegalCommand ↔ ∃ why, decode tx.cmd = .error why := by
  unfold hasCause
  cases decode tx.cmd <;> simp

theorem hasCause_invalidArgument_iff :
    hasCause maxPacket tx .invalidArgument ↔ ∃ i, decode tx.cmd = .ok i ∧ ¬ argumentsLegal maxPacket tx i := by
  unfold hasCause
  cases decode tx.cmd <;> simp

theorem hasCause_unsupportedBaud_iff :
    hasCause maxPacket tx .unsupportedBaud ↔
      ∃ i, decode tx.cmd = .ok i ∧ argumentsLegal maxPacket tx i ∧ RateCause tx i := by
  unfold hasCause
  cases decode tx.cmd <;> simp [RateCause]

theorem hasCause_shortFrame_iff :
    hasCause maxPacket tx .shortFrame ↔ decode tx.cmd = .ok .stripFrame ∧ tx.nread.toNat < 2 := by
  unfold hasCause
  cases decode tx.cmd <;> simp

theorem hasCause_ok_iff : hasCause maxPacket tx .ok ↔ ∃ i, decode tx.cmd = .ok i := by
  unfold hasCause
  cases decode tx.cmd <;> simp

end causes

/-! ### The cause that is reported -/

/-- `st` is the cause of highest priority among those the transaction has (60_exceptions.md R235). -/
def FirstCause (maxPacket : Half) (tx : Transaction) (st : Status) : Prop :=
  hasCause maxPacket tx st ∧ ∀ st', hasCause maxPacket tx st' → st.priority ≤ st'.priority

section firstCause
variable {maxPacket : Half} {tx : Transaction} {i : Instr}

/-- ILLEGAL_COMMAND has the highest priority, and a rejected word has no other cause. -/
theorem firstCause_illegalCommand {why : DecodeError} (hd : decode tx.cmd = .error why) :
    FirstCause maxPacket tx .illegalCommand := by
  refine ⟨hasCause_illegalCommand_iff.mpr ⟨why, hd⟩, fun st' _ => ?_⟩
  cases st' <;> decide

theorem not_hasCause_illegalCommand (hd : decode tx.cmd = .ok i) :
    ¬ hasCause maxPacket tx .illegalCommand := by
  simp [hasCause_illegalCommand_iff, hd]

theorem firstCause_invalidArgument (hd : decode tx.cmd = .ok i) (h : ¬ argumentsLegal maxPacket tx i) :
    FirstCause maxPacket tx .invalidArgument := by
  refine ⟨hasCause_invalidArgument_iff.mpr ⟨i, hd, h⟩, fun st' h' => ?_⟩
  cases st' with
  | illegalCommand => exact absurd h' (not_hasCause_illegalCommand hd)
  | invalidArgument | unsupportedBaud | shortFrame | ok => decide

theorem not_hasCause_invalidArgument (hd : decode tx.cmd = .ok i) (h : argumentsLegal maxPacket tx i) :
    ¬ hasCause maxPacket tx .invalidArgument := by
  simp [hasCause_invalidArgument_iff, hd, h]

theorem firstCause_unsupportedBaud (hd : decode tx.cmd = .ok i) (hl : argumentsLegal maxPacket tx i)
    (hr : RateCause tx i) : FirstCause maxPacket tx .unsupportedBaud := by
  refine ⟨hasCause_unsupportedBaud_iff.mpr ⟨i, hd, hl, hr⟩, fun st' h' => ?_⟩
  cases st' with
  | illegalCommand => exact absurd h' (not_hasCause_illegalCommand hd)
  | invalidArgument => exact absurd h' (not_hasCause_invalidArgument hd hl)
  | unsupportedBaud | shortFrame | ok => decide

theorem not_hasCause_unsupportedBaud (hd : decode tx.cmd = .ok i) (hr : ¬ RateCause tx i) :
    ¬ hasCause maxPacket tx .unsupportedBaud := by
  simp [hasCause_unsupportedBaud_iff, hd, hr]

theorem hasCause_shortFrame_iff_of_decode (hd : decode tx.cmd = .ok i) :
    hasCause maxPacket tx .shortFrame ↔ i = .stripFrame ∧ tx.nread.toNat < 2 := by
  simp [hasCause_shortFrame_iff, hd]

/-- A command that passes its checks has no error among its causes. -/
theorem eq_shortFrame_or_eq_ok_of_hasCause {st' : Status} (hd : decode tx.cmd = .ok i)
    (hl : argumentsLegal maxPacket tx i) (hr : ¬ RateCause tx i) (h' : hasCause maxPacket tx st') :
    st' = .shortFrame ∨ st' = .ok := by
  cases st' with
  | illegalCommand => exact absurd h' (not_hasCause_illegalCommand hd)
  | invalidArgument => exact absurd h' (not_hasCause_invalidArgument hd hl)
  | unsupportedBaud => exact absurd h' (not_hasCause_unsupportedBaud hd hr)
  | shortFrame => exact .inl rfl
  | ok => exact .inr rfl

/-- Such a command has SHORT_FRAME before OK, when it has it at all (43_frame_strip.md R213). -/
theorem firstCause_completionStatus (hd : decode tx.cmd = .ok i) (hl : argumentsLegal maxPacket tx i)
    (hr : ¬ RateCause tx i) : FirstCause maxPacket tx (completionStatus tx i) := by
  have hothers := fun st' => eq_shortFrame_or_eq_ok_of_hasCause (st' := st') hd hl hr
  have hshort := hasCause_shortFrame_iff_of_decode (maxPacket := maxPacket) hd
  unfold completionStatus
  split
  case isTrue h =>
    refine ⟨hshort.mpr h, fun st' h' => ?_⟩
    obtain rfl | rfl := hothers st' h' <;> decide
  case isFalse h =>
    refine ⟨hasCause_ok_iff.mpr ⟨i, hd⟩, fun st' h' => ?_⟩
    obtain rfl | rfl := hothers st' h'
    · exact absurd (hshort.mp h') h
    · exact le_rfl

end firstCause

/-- A step reports the cause of highest priority (60_exceptions.md R235). -/
theorem lastResponse_status {s t : State} {tx : Transaction} {rest : List Transaction}
    (hp : s.presented = tx :: rest) (h : step s = .next t) :
    ∃ st : Status, t.lastResponse.status = some st.code ∧ FirstCause s.maxPacket tx st := by
  obtain ⟨why, hd, hr⟩ | ⟨i, hd, hr⟩ := lastResponse_cases hp h
  · exact ⟨.illegalCommand, by rw [hr]; rfl, firstCause_illegalCommand hd⟩
  generalize t.lastResponse = r at hr ⊢
  cases commandResponse_verdict hr with
  | illegal hl => exact ⟨.invalidArgument, rfl, firstCause_invalidArgument hd hl⟩
  | refused hl href => exact ⟨.unsupportedBaud, rfl, firstCause_unsupportedBaud hd hl href⟩
  | completed _ hl href hst => exact ⟨_, hst, firstCause_completionStatus hd hl href⟩

/-! ### The statements on statuses -/

/-- Settles O8: such a word does not decode, and its response is ILLEGAL_COMMAND alone. -/
theorem illegalWordsAnswerIllegalCommand : Obligations.IllegalWordsAnswerIllegalCommand := by
  intro s tx rest hp hword
  obtain ⟨why, hd⟩ := decode_error_of_illegal hword
  exact (step_eq_answer_transactionResponse hp).trans
    (answer_cons hp (transactionResponse_of_decode_error hd))

/-- Settles O41: an error status stands alone in the response, and the response is all that a step adds. -/
theorem errorsLeaveNothingButTheStatus : Obligations.ErrorsLeaveNothingButTheStatus := by
  intro s t tx rest c hp h hc
  refine ⟨fun he => ?_, lastResponse_reqs_eq_nil hp h hc⟩
  rw [← lastResponse_eq_statusOnly hp h hc he]
  exact eq_answered_of_step hp h

/-- Settles O42: the status is one of the transaction's causes, and each cause names its commands. -/
theorem statusesComeOnlyFromTheirCommands : Obligations.StatusesComeOnlyFromTheirCommands := by
  refine ⟨⟨rfl, rfl, rfl, rfl, rfl, Status.isError_iff_errorCode⟩, fun s t tx rest hp h => ?_⟩
  obtain ⟨st, hst, hcause, hfirst⟩ := lastResponse_status hp h
  refine ⟨st.code, hst, st.code_le, fun hc => ?_, fun hc => ?_, ⟨fun hc => ?_, fun hd => ?_⟩, fun hc => ?_⟩
  · obtain rfl := Status.code_injective (a₂ := .invalidArgument) hc
    exact hasCause_invalidArgument_iff.mp hcause
  · obtain rfl := Status.code_injective (a₂ := .unsupportedBaud) hc
    obtain ⟨i, hd, _, hconsumes, _⟩ := hasCause_unsupportedBaud_iff.mp hcause
    exact ⟨i, hd, hconsumes⟩
  · obtain rfl := Status.code_injective (a₂ := .illegalCommand) hc
    exact hasCause_illegalCommand_iff.mp hcause
  · have hle := hfirst .illegalCommand (hasCause_illegalCommand_iff.mpr hd)
    cases st with
    | illegalCommand => rfl
    | invalidArgument | unsupportedBaud | shortFrame | ok => exact absurd hle (by decide)
  · obtain rfl := Status.code_injective (a₂ := .shortFrame) hc
    exact (hasCause_shortFrame_iff.mp hcause).1

/-- Settles O43: the checks come in the order of the priorities (`commandResponse_verdict`), so the first that
fails is the first cause. -/
theorem statusIsTheCauseOfHighestPriority : Obligations.StatusIsTheCauseOfHighestPriority := by
  refine ⟨rfl, fun s t tx rest hp h => ?_⟩
  obtain ⟨st, hst, hcause, hfirst⟩ := lastResponse_status hp h
  exact ⟨st, hst, hcause, hfirst, lastResponse_eq_statusOnly hp h hst⟩

end Sys2Proof.Machine
end

section
/-!
# The decoder against the encoder (30_encoding.md R70 to R86)

A word decodes exactly when it passes the MASK and MATCH test of an opcode. The first part reads the fields of
such a word off its MATCH, which settles what OPC and the fields not used are; the second says so of the
decoder; the third settles the statements on the two directions and on written-out words.
-/

namespace Sys2Proof

/-! ### The fields of a word that passes the test -/

/-- Where MASK is all ones, a word that passes the test has the bits of MATCH (30_encoding.md R72). -/
theorem Opcode.extract_of_match {op : Opcode} {w : Word} (h : w &&& op.mask = op.matchWord) (start len : Nat)
    (hmask : op.mask.extractLsb' start len = BitVec.allOnes len) :
    w.extractLsb' start len = op.matchWord.extractLsb' start len := by
  rw [← h, BitVec.extractLsb'_and, hmask, BitVec.and_allOnes]

/-- Every MASK keeps OPC, so a word passes the test of its own opcode only (30_encoding.md R72). -/
theorem Opcode.opc_of_match {op : Opcode} {w : Word} (h : w &&& op.mask = op.matchWord) :
    w.extractLsb' 0 8 = op.code := by
  have hmask : op.mask.extractLsb' 0 8 = BitVec.allOnes 8 := by cases op <;> rfl
  have hmatch : op.matchWord.extractLsb' 0 8 = op.code := by cases op <;> rfl
  rw [op.extract_of_match h 0 8 hmask, hmatch]

/-- MATCH is zero above OPC, so a word that passes the test is zero wherever else MASK is all ones
(30_encoding.md R72). -/
theorem Opcode.extract_eq_zero_of_match {op : Opcode} {w : Word} (h : w &&& op.mask = op.matchWord)
    (start len : Nat) (hstart : 8 ≤ start) (hmask : op.mask.extractLsb' start len = BitVec.allOnes len) :
    w.extractLsb' start len = 0#len := by
  rw [op.extract_of_match h start len hmask]
  apply BitVec.eq_of_getLsbD_eq
  intro n _
  simp [matchWord, BitVec.getLsbD_of_ge op.code (start + n) (by omega)]

/-- The fields of the assembled command are all the fields of the word: it holds zero in every field that the
opcode does not use. -/
theorem Opcode.fields_assemble {op : Opcode} {w : Word} (h : w &&& op.mask = op.matchWord) :
    (op.assemble (CmdFields.ofWord w)).fields = CmdFields.ofWord w := by
  have hopc := op.opc_of_match h
  have hzero := op.extract_eq_zero_of_match h
  cases op <;> simp (disch := decide) [assemble, Instr.fields, Instr.opcode, CmdFields.ofWord, hopc, hzero]

theorem Instr.assemble_fields (i : Instr) : i.opcode.assemble i.fields = i := by cases i <;> rfl

/-- The word of every command passes its opcode's test (30_encoding.md R72): `WordAccepted`, one lemma for each
command. -/
theorem accepts_encode (i : Instr) : i.opcode.accepts (encode i) = true := by
  cases i with
  | reqReset => exact Laws.WordAccepted.reqReset
  | reqModemCtrl dtr rts => exact Laws.WordAccepted.reqModemCtrl dtr rts
  | reqFlowCtrl flow => exact Laws.WordAccepted.reqFlowCtrl flow
  | reqSetBaud fam => exact Laws.WordAccepted.reqSetBaud fam
  | reqSetLine dbits par stop brk => exact Laws.WordAccepted.reqSetLine dbits par stop brk
  | reqPollStatus => exact Laws.WordAccepted.reqPollStatus
  | reqConfigure fam dbits par stop brk flow dtr rts =>
      exact Laws.WordAccepted.reqConfigure fam dbits par stop brk flow dtr rts
  | encLine dbits par stop brk => exact Laws.WordAccepted.encLine dbits par stop brk
  | encBaud fam => exact Laws.WordAccepted.encBaud fam
  | stripFrame => exact Laws.WordAccepted.stripFrame

/-! ### What decodes -/

/-- The decoder answers the command that the fields make, for the one opcode whose test the word passes
(30_encoding.md R72, R81). -/
theorem decode_eq_ok_iff (w : Word) (i : Instr) :
    decode w = .ok i ↔ ∃ op : Opcode, w &&& op.mask = op.matchWord ∧ i = op.assemble (CmdFields.ofWord w) := by
  constructor
  · intro hd
    obtain ⟨op, _, hmatch, hok⟩ | ⟨op, _, _, herr⟩ | ⟨_, herr⟩ := decode_cases w
    · exact ⟨op, beq_iff_eq.mp hmatch, Except.ok.inj (hd.symm.trans hok)⟩
    · exact nomatch hd.symm.trans herr
    · exact nomatch hd.symm.trans herr
  · rintro ⟨op, hmatch, rfl⟩
    exact (Machine.decode_of_opcode op (op.opc_of_match hmatch)).trans (if_pos hmatch)

/-- A statement about some opcode is a statement about one of the ten (30_encoding.md R81). -/
theorem Opcode.exists_iff (p : Opcode → Prop) :
    (∃ op, p op) ↔ p .reqReset ∨ p .reqModemCtrl ∨ p .reqFlowCtrl ∨ p .reqSetBaud ∨ p .reqSetLine ∨
      p .reqPollStatus ∨ p .reqConfigure ∨ p .encLine ∨ p .encBaud ∨ p .stripFrame := by
  constructor
  · rintro ⟨op, h⟩
    cases op <;> simp [h]
  · rintro (h | h | h | h | h | h | h | h | h | h) <;> exact ⟨_, h⟩

/-! ### The statements on words -/

/-- Settles O1: the word passes the test of its opcode, and its fields are those of the command. -/
theorem decodeOfEncodeIsTheInstruction : Obligations.DecodeOfEncodeIsTheInstruction := by
  intro i
  refine (decode_eq_ok_iff _ _).mpr ⟨i.opcode, beq_iff_eq.mp (accepts_encode i), ?_⟩
  rw [ofWord_encode, i.assemble_fields]

/-- Settles O2: the decoded command has the fields of the word, and the fields of a word are all of it. -/
theorem encodeOfDecodeIsTheWord : Obligations.EncodeOfDecodeIsTheWord := by
  intro w i hd
  obtain ⟨op, hmatch, rfl⟩ := (decode_eq_ok_iff w i).mp hd
  rw [encode, op.fields_assemble hmatch, CmdFields.toWord_ofWord]

/-- Settles O3: the masks and matches of the ten opcodes, then `decode_eq_ok_iff`. -/
theorem decodeAcceptsExactlyTheMatchingWords : Obligations.DecodeAcceptsExactlyTheMatchingWords := by
  refine ⟨fun op => by cases op <;> decide, fun w => ⟨?_, ?_⟩⟩
  · rintro ⟨i, hd⟩
    obtain ⟨op, hmatch, _⟩ := (decode_eq_ok_iff w i).mp hd
    exact ⟨op, op.opc_of_match hmatch, hmatch⟩
  · rintro ⟨op, _, hmatch⟩
    exact ⟨_, (decode_eq_ok_iff w _).mpr ⟨op, hmatch, rfl⟩⟩

/-- Settles O4: `decode_eq_ok_iff`, opcode by opcode; a MASK of all ones leaves the word as it is. -/
theorem decodedFieldsAreTheTableBits : Obligations.DecodedFieldsAreTheTableBits := by
  intro w i fam dbits par stop brk flow dtr rts
  have hall : w &&& (0xFFFFFFFF : Word) = w := BitVec.and_allOnes
  have hopcodes := (decode_eq_ok_iff w i).trans (Opcode.exists_iff _)
  simp only [Opcode.mask, hall] at hopcodes
  exact hopcodes

/-- Settles O5: the decoder evaluated at the ten words. -/
theorem writtenOutWordsDecode : Obligations.WrittenOutWordsDecode := by
  unfold Obligations.WrittenOutWordsDecode
  decide

/-- Settles O6: the assembler evaluated at the six lines. -/
theorem pseudoInstructionsAssembleToTheirWords : Obligations.PseudoInstructionsAssembleToTheirWords := by
  unfold Obligations.PseudoInstructionsAssembleToTheirWords
  decide

end Sys2Proof
end

section
/-!
# Steps, resets and inputs that are not read (10_state.md sections 2 and 3, 70_reset_and_hazards.md section 1)

A step does nothing or answers the transaction presented next. The first part says so as one case analysis, the
second which inputs a command reads, and the third settles the statements on steps and on the reset.
-/

namespace Sys2Proof.Machine

/-! ### What a step answers -/

theorem step_of_presented_nil {s : State} (hp : s.presented = []) : step s = .next s := by
  obtain ⟨_, hs⟩ | ⟨_, _, _, hcons, _⟩ | ⟨_, _, _, hcons, _⟩ := step_cases s
  · exact hs
  · exact nomatch hp.symm.trans hcons
  · exact nomatch hp.symm.trans hcons

/-- With a transaction presented a step answers it, whatever its word (60_exceptions.md R230, R231). -/
theorem step_of_presented_cons {s : State} {tx : Transaction} {rest : List Transaction}
    (hp : s.presented = tx :: rest) :
    ∃ r, transactionResponse s.portIndex s.maxPacket tx = .ok r ∧ step s = .next (s.answered tx rest r) := by
  obtain ⟨r, hr⟩ := transactionResponse_total s.portIndex s.maxPacket tx
  exact ⟨r, hr, (step_eq_answer_transactionResponse hp).trans (answer_cons hp hr)⟩

theorem step_answers (s : State) : Answers (step s) := by
  cases hp : s.presented with
  | nil => exact ⟨_, step_of_presented_nil hp⟩
  | cons tx rest =>
      obtain ⟨r, _, hs⟩ := step_of_presented_cons hp
      exact ⟨_, hs⟩

/-- The state after a step: the same, or the one in which the next transaction has its response. -/
theorem step_next_cases {s t : State} (h : step s = .next t) :
    (s.presented = [] ∧ t = s) ∨
      ∃ tx rest r, s.presented = tx :: rest ∧ transactionResponse s.portIndex s.maxPacket tx = .ok r ∧
        t = s.answered tx rest r := by
  cases hp : s.presented with
  | nil => exact .inl ⟨rfl, Host.Outcome.next.inj (h.symm.trans (step_of_presented_nil hp))⟩
  | cons tx rest =>
      obtain ⟨r, hr, hs⟩ := step_of_presented_cons hp
      exact .inr ⟨tx, rest, r, rfl, hr, Host.Outcome.next.inj (h.symm.trans hs)⟩

/-! ### The inputs a command reads -/

/-- BAUD and PORT_INDEX are read by the commands with a FAM field only, and FRAME, NREAD and MAX_PACKET by
STRIP_FRAME only (10_state.md R23, R24). -/
theorem commandResponse_congr {portIndex portIndex' : BitVec 8} {maxPacket maxPacket' : Half}
    {tx tx' : Transaction} {i : Instr}
    (hbaud : (baudField i).isSome → tx.baud = tx'.baud ∧ portIndex = portIndex')
    (hframe : i = .stripFrame → tx.frame = tx'.frame ∧ tx.nread = tx'.nread ∧ maxPacket = maxPacket') :
    commandResponse portIndex maxPacket tx i = commandResponse portIndex' maxPacket' tx' i := by
  cases i with
  | reqSetBaud | reqConfigure | encBaud =>
      obtain ⟨hrate, hport⟩ := hbaud rfl
      simp only [commandResponse, hrate, hport]
  | stripFrame =>
      obtain ⟨hbytes, hnread, hmax⟩ := hframe rfl
      simp only [commandResponse, hbytes, hnread, hmax]
  | reqReset | reqModemCtrl | reqFlowCtrl | reqSetLine | reqPollStatus | encLine => rfl

/-! ### The statements on steps and on the reset -/

/-- Settles O7: of the cases of a step, the one of a word that decodes. -/
theorem stepRunsTheDecodedCommand : Obligations.StepRunsTheDecodedCommand := by
  intro s tx rest i hp hd
  obtain ⟨hnil, _⟩ | ⟨tx₁, rest₁, why, hp₁, herr, _⟩ | ⟨tx₁, rest₁, j, hp₁, hj, hs⟩ := step_cases s
  · exact nomatch hp.symm.trans hnil
  · obtain ⟨rfl, rfl⟩ := List.cons.inj (hp.symm.trans hp₁)
    exact nomatch hd.symm.trans herr
  · obtain ⟨rfl, rfl⟩ := List.cons.inj (hp.symm.trans hp₁)
    rw [hs, Except.ok.inj (hd.symm.trans hj)]

/-- Settles O9: of the cases of a step, the one with nothing presented. -/
theorem stepWithoutTransactionIsIdle : Obligations.StepWithoutTransactionIsIdle :=
  fun _ => step_of_presented_nil

/-- Settles O10: a step is idle, or every transaction has a response (`transactionResponse_total`). -/
theorem everyStepAnswers : Obligations.EveryStepAnswers := step_answers

/-- Settles O11: the state is the same or `State.answered`, whose fields the laws of State give. -/
theorem stepChangesOnlyTheAnsweredTransaction : Obligations.StepChangesOnlyTheAnsweredTransaction := by
  intro s t h
  obtain ⟨hnil, rfl⟩ | ⟨tx, rest, r, hp, _, rfl⟩ := step_next_cases h
  · simp [hnil]
  · refine ⟨rfl, rfl, by simp [hp], by simp, by simp [hp], fun tx₁ rest₁ hp₁ => ?_⟩
    obtain ⟨rfl, rfl⟩ := List.cons.inj (hp.symm.trans hp₁)
    refine ⟨r, rfl, fun e addr he => ?_⟩
    obtain rfl : (⟨tx, r⟩ : Exchange) = e := by simpa using he
    exact ⟨rfl, rfl⟩

/-- Settles O48: both states hold no transaction and no exchange by definition. -/
theorem resetLeavesNoTransactionAndNoValue : Obligations.ResetLeavesNoTransactionAndNoValue :=
  ⟨⟨rfl, rfl, rfl, rfl⟩, fun _ => ⟨rfl, rfl, rfl, rfl⟩⟩

/-- Settles O49: after a reset nothing is presented and nothing was answered; the response to the next
transaction is a function of it and of the parameters, which the reset leaves alone. -/
theorem resetAbandonsTheTransactionInProgress : Obligations.ResetAbandonsTheTransactionInProgress := by
  intro s tx agent
  obtain ⟨r, hr, hs⟩ := step_of_presented_cons (s := s.blockReset.present tx) (tx := tx) (rest := []) rfl
  obtain ⟨r', hr', hs'⟩ :=
    step_of_presented_cons (s := { s with presented := [tx] }) (tx := tx) (rest := []) rfl
  have hsame : r = r' := Except.ok.inj (hr.symm.trans hr')
  refine ⟨rfl, step_of_presented_nil rfl, _, _, hs, hs', ?_, rfl⟩
  rw [State.answered_lastResponse, State.answered_lastResponse, hsame]

/-- Settles O53: both responses are `commandResponse` of the same command, which reads no other input. -/
theorem ignoredInputsHaveNoEffect : Obligations.IgnoredInputsHaveNoEffect := by
  intro s s' t t' tx tx' rest rest' i hp hp' hbaud hframe h h'
  have hr := commandResponse_of_exec_cons hp h
  have hr' := commandResponse_of_exec_cons hp' h'
  rw [commandResponse_congr hbaud hframe] at hr
  exact Except.ok.inj (hr.symm.trans hr')

end Sys2Proof.Machine
end

section
/-!
# Bounds of the baud-divisor calculator (41_baud_encoding.md sections 1 to 5)

Every divisor the two paths can choose lies between 8 and 0x1FFFF, so every achieved rate lies between 183 Bd
and the fastest rate of its clock. The first part bounds the AM path, the second the general path on its two
clocks, the third the rate of each family; the fourth reads the fields of the H index, and the last settles the
statements.
-/

namespace Sys2Proof.Machine

/-! ### The AM path -/

/-- An adjusted divisor is the minimum, 16, or above 16 (41_baud_encoding.md R128). -/
theorem amAdjust_eq_eight_or_ge (t : Nat) : amAdjust t = 8 ∨ 16 ≤ amAdjust t := by
  rw [amAdjust_eq_getD]
  split
  · exact .inl rfl
  split
  · exact .inr le_rfl
  split <;> omega

/-- Only 12 eighths pack to 0x4001, and no adjusted divisor is 12 (41_baud_encoding.md R133). -/
theorem packDivisor_amAdjust_ne (t : Nat) : packDivisor (amAdjust t) ≠ 0x4001 := by
  have hbounds := amAdjust_bounds t
  have hlow := amAdjust_eq_eight_or_ge t
  rw [packDivisor_eq_getD (by omega)]
  obtain hf | hf | hf | hf := amAdjust_fraction t <;>
    simp only [hf, List.getD_cons_zero, List.getD_cons_succ] <;> omega

/-- The estimate falls as the divisor grows, so its bounds are those of 0x1FFF8 and of 8
(41_baud_encoding.md R129). -/
theorem amEstimate_bounds {t : Nat} (hlow : 8 ≤ t) (hhigh : t ≤ 0x1FFF8) :
    183 ≤ amEstimate t ∧ amEstimate t ≤ 3000000 := by
  unfold amEstimate amClk
  constructor
  · rw [Nat.le_div_iff_mul_le (by omega)]
    omega
  · refine Nat.le_of_lt_succ ?_
    rw [Nat.div_lt_iff_lt_mul (by omega)]
    omega

theorem amPath_ach_bounds (baud : Nat) : 183 ≤ (amPath baud).ach ∧ (amPath baud).ach ≤ 3000000 := by
  obtain ⟨t, ht⟩ := amSurvivor_adjusted baud
  obtain ⟨hlow, hhigh⟩ := amAdjust_bounds t
  have hach : (amPath baud).ach = amEstimate (amAdjust t) := by rw [← ht]; exact amSurvivor_est baud
  rw [hach]
  exact amEstimate_bounds hlow hhigh

/-! ### The general path -/

/-- Below the third fast path the divisor is at least 16, and the clamp holds it at most 0x1FFFF
(41_baud_encoding.md R143, R144). -/
theorem fractionalSearch_ach_bounds {sixteenths baud : Nat} (hbaud : 0 < baud) (hslow : 32 * baud ≤ sixteenths)
    (hclock : 48000000 ≤ sixteenths) :
    183 ≤ (fractionalSearch sixteenths baud).ach ∧
      (fractionalSearch sixteenths baud).ach ≤ sixteenths / 16 := by
  have hdivisor : 32 ≤ sixteenths / baud := (Nat.le_div_iff_mul_le hbaud).mpr hslow
  simp only [fractionalSearch]
  generalize hd : min ((sixteenths / baud + 1) / 2) 0x1FFFF = d8
  have hlow : 16 ≤ d8 := by omega
  have hhigh : d8 ≤ 0x1FFFF := by omega
  have hleast : 366 ≤ sixteenths / d8 := by
    rw [Nat.le_div_iff_mul_le (by omega)]
    omega
  have hmost : sixteenths / d8 ≤ sixteenths / 16 := Nat.div_le_div_left hlow (by decide)
  omega

/-- The achieved rate is that of a fast path, or that of the search for a rate below the third
(41_baud_encoding.md R140 to R144). -/
theorem general_ach_cases (baud clk div : Nat) :
    (general baud clk div).ach = clk / div ∨ (general baud clk div).ach = clk / (div + div / 2) ∨
      (general baud clk div).ach = clk / (2 * div) ∨
      (baud < clk / (2 * div) ∧ (general baud clk div).ach = (fractionalSearch (clk * 16 / div) baud).ach) := by
  rw [general_eq_fractionalSearch]
  split
  · exact .inl rfl
  split
  · exact .inr (.inl rfl)
  split
  · exact .inr (.inr (.inl rfl))
  · rename_i hslow
    exact .inr (.inr (.inr ⟨not_le.mp hslow, rfl⟩))

/-- The rates of BM, and of H below 733 Bd (41_baud_encoding.md R121). -/
theorem general_cClk_ach_bounds {baud : Nat} (hbaud : 0 < baud) :
    183 ≤ (general baud cClk cDiv).ach ∧ (general baud cClk cDiv).ach ≤ 3000000 := by
  obtain h | h | h | ⟨hslow, h⟩ := general_ach_cases baud cClk cDiv <;> rw [h]
  · decide
  · decide
  · decide
  · have hslow : baud < 1500000 := hslow
    exact fractionalSearch_ach_bounds (sixteenths := 48000000) hbaud (by omega) le_rfl

/-- The rates of H from 733 Bd on (41_baud_encoding.md R121). -/
theorem general_hClk_ach_bounds {baud : Nat} (hbaud : 0 < baud) :
    183 ≤ (general baud hClk hDiv).ach ∧ (general baud hClk hDiv).ach ≤ 12000000 := by
  obtain h | h | h | ⟨hslow, h⟩ := general_ach_cases baud hClk hDiv <;> rw [h]
  · decide
  · decide
  · decide
  · have hslow : baud < 6000000 := hslow
    exact fractionalSearch_ach_bounds (sixteenths := 192000000) hbaud (by omega) (by decide)

/-! ### The rate of each family -/

theorem encodedRate_enc_lt (baud : Nat) (fam : Family) :
    (encodedRate baud fam).enc < if fam = .h then 2 ^ 18 else 2 ^ 17 := by
  cases fam with
  | am => exact (amPath_enc_lt baud).trans (by decide)
  | bm => exact general_enc_lt baud cClk cDiv
  | h => exact encodedRate_h_enc_lt baud

theorem encodedRate_ach_bounds {baud : Nat} (hbaud : 0 < baud) (fam : Family) :
    183 ≤ (encodedRate baud fam).ach ∧
      (encodedRate baud fam).ach ≤ if fam = .h then 12000000 else 3000000 := by
  cases fam with
  | am => exact amPath_ach_bounds baud
  | bm => exact general_cClk_ach_bounds hbaud
  | h =>
      obtain ⟨hlow, hhigh⟩ := general_cClk_ach_bounds hbaud
      rw [encodedRate_h]
      split
      · exact general_hClk_ach_bounds hbaud
      · exact ⟨hlow, hhigh.trans (by decide)⟩

/-- ACHIEVED holds every achieved rate whole (41_baud_encoding.md R155). -/
theorem encodedRate_ach_toNat (baud : Nat) (fam : Family) :
    (BitVec.ofNat 32 (encodedRate baud fam).ach).toNat = (encodedRate baud fam).ach := by
  rw [BitVec.toNat_ofNat, Nat.mod_eq_of_lt (encodedRate_ach_lt baud fam)]

/-! ### The fields of the H index -/

/-- Bit 17 of the encoded divisor is the clock switch: the general path itself uses 17 bits
(41_baud_encoding.md R121). -/
theorem encodedRate_h_clock_iff (baud : Nat) : 2 ≤ (encodedRate baud .h).enc / 0x10000 ↔ 733 ≤ baud := by
  have hhigh := general_enc_lt baud hClk hDiv
  have hlow := general_enc_lt baud cClk cDiv
  rw [encodedRate_h]
  split
  · dsimp only
    omega
  · omega

/-- The H index over its two fields: the high bits of the divisor, at most 3, and PORT_INDEX
(41_baud_encoding.md R152). -/
theorem baudEncode_h_index_toNat (baud : Nat) (port : BitVec 8) :
    ∃ high ≤ 3, (baudEncode baud .h port).index.toNat = high * 0x100 + port.toNat ∧
      (2 ≤ high ↔ 733 ≤ baud) := by
  have hbits := encodedRate_h_enc_lt baud
  exact ⟨(encodedRate baud .h).enc / 0x10000, by omega, divisorIndex_h_toNat port (by omega),
    encodedRate_h_clock_iff baud⟩

/-! ### The statements on the bounds -/

/-- Settles O32: the surviving divisor is adjusted, and only 12 would be remapped from 0x4001. -/
theorem amDivisorsAreSupported : Obligations.AmDivisorsAreSupported := by
  intro baud _ t
  obtain ⟨t₀, ht⟩ := amSurvivor_adjusted baud
  have ht : t = amAdjust t₀ := ht
  have hlow := amAdjust_eq_eight_or_ge t₀
  have hfraction := amAdjust_fraction t₀
  have hbounds := amAdjust_bounds t₀
  refine ⟨by omega, ht ▸ packDivisor_amAdjust_ne t₀, Nat.le_of_lt_succ (amPath_enc_lt baud), ?_⟩
  exact amPath_ach_bounds baud

/-- Settles O35: the index is a sum of its two fields, from which its bits are read. -/
theorem hIndexShowsTheClockSwitch : Obligations.HIndexShowsTheClockSwitch := by
  intro baud port _ index
  obtain ⟨high, hhigh, hindex, hclock⟩ := baudEncode_h_index_toNat baud port
  have hindex : index.toNat = high * 0x100 + port.toNat := hindex
  have hport := port.isLt
  refine ⟨BitVec.eq_of_toNat_eq ?_, ?_, BitVec.eq_of_toNat_eq ?_⟩
  · rw [BitVec.extractLsb'_toNat, hindex, Nat.shiftRight_zero]
    omega
  · rw [← hclock, BitVec.getLsbD, hindex, Nat.testBit_eq_decide_div_mod_eq, decide_eq_true_iff]
    omega
  · rw [BitVec.extractLsb'_toNat, hindex, Nat.shiftRight_eq_div_pow]
    exact show (high * 0x100 + port.toNat) / 2 ^ 10 % 2 ^ 6 = 0 by omega

/-- Settles O36: the bounds of the two paths, family by family. -/
theorem encodedRatesFitTheirFields : Obligations.EncodedRatesFitTheirFields := by
  intro baud fam port hbaud
  obtain ⟨hlow, hhigh⟩ := encodedRate_ach_bounds hbaud fam
  exact ⟨encodedRate_enc_lt baud fam, hlow, hhigh, encodedRate_ach_toNat baud fam, rfl⟩

/-- Settles O38: the calculator evaluated at the standard rates. -/
theorem standardRatesAreWithinTolerance : Obligations.StandardRatesAreWithinTolerance := by
  unfold Obligations.StandardRatesAreWithinTolerance
  decide

end Sys2Proof.Machine
end

section
/-!
# The contract of a response (10_state.md section 5, 42_control_requests.md section 1, 60_exceptions.md section 3)

Every response a command builds keeps `responseLegal`. The first part shows that every request has the form of
the table; the second that every shape of a response keeps the contract and that a check does not break it; the
third puts them together, command by command. The last settles the statements on requests and on the machine
invariant.
-/

namespace Sys2Proof.Machine

/-! ### The requests -/

/-- The host→device requests: their codes are below that of the poll, and only set-baud-rate has an index
(42_control_requests.md R170). -/
theorem requestLegal_outRequest {code : Byte} (hcode : code.toNat ≤ 4) (value : Half) {index : Half}
    (hindex : code ≠ 0x03 → index = 0) : requestLegal (outRequest code value index) := by
  have hpoll : code ≠ 0x05 := by
    rintro rfl
    exact absurd hcode (by decide)
  exact ⟨hcode.trans (by decide), ⟨(nomatch ·), fun h => absurd h hpoll⟩,
    (if_neg hpoll).symm, hindex⟩

theorem requestLegal_resetRequest : requestLegal resetRequest :=
  requestLegal_outRequest (by decide) _ fun _ => rfl

theorem requestLegal_modemRequest (d r : LineSel) : requestLegal (modemRequest d r) :=
  requestLegal_outRequest (by decide) _ fun _ => rfl

theorem requestLegal_flowRequest (m : FlowMode) : requestLegal (flowRequest m) :=
  requestLegal_outRequest (by decide) _ fun _ => rfl

theorem requestLegal_baudRequest (b : BaudResult) : requestLegal (baudRequest b) :=
  requestLegal_outRequest (by decide) _ fun h => absurd rfl h

theorem requestLegal_lineRequest (c : LineConfig) : requestLegal (lineRequest c) :=
  requestLegal_outRequest (by decide) _ fun _ => rfl

/-- The only device→host request (42_control_requests.md R185). -/
theorem requestLegal_pollRequest : requestLegal pollRequest :=
  ⟨by decide, by decide, rfl, fun _ => rfl⟩

/-! ### The shapes of a response -/

theorem not_errorCode_ok : ¬ errorCode 0x00 := not_errorCode_of_isError_eq_false (st := .ok) rfl rfl

section shapes
variable {maxPacket : Half}

/-- A status alone keeps the contract, error or not. -/
theorem responseLegal_raise (st : Status) : responseLegal maxPacket (raise st) :=
  ⟨⟨st.code, rfl, st.code_le, fun _ => rfl⟩, by simp [raise], by simp [raise], by simp [raise], by simp [raise],
    by simp [raise]⟩

theorem responseLegal_okRequests {qs : List ControlRequest} (hlength : qs.length ≤ 4)
    (hlegal : ∀ q ∈ qs, requestLegal q) : responseLegal maxPacket (okRequests qs) :=
  ⟨⟨0x00, rfl, by decide, fun he => absurd he not_errorCode_ok⟩, hlength,
    hlegal, by simp [okRequests], by simp [okRequests], by simp [okRequests]⟩

theorem responseLegal_okLineValue {v : Half} (hmask : v &&& 0x4F0F = v) :
    responseLegal maxPacket (okLineValue v) :=
  ⟨⟨0x00, rfl, by decide, fun he => absurd he not_errorCode_ok⟩,
    by simp [okLineValue], by simp [okLineValue], by simpa [okLineValue] using hmask, by simp [okLineValue],
    by simp [okLineValue]⟩

theorem responseLegal_okBaud {b : BaudResult} {qs : List ControlRequest} (hlow : 183 ≤ b.ach)
    (hhigh : b.ach ≤ 12000000) (hlength : qs.length ≤ 4) (hlegal : ∀ q ∈ qs, requestLegal q) :
    responseLegal maxPacket (okBaud b qs) := by
  have hach : (BitVec.ofNat 32 b.ach).toNat = b.ach := by
    rw [BitVec.toNat_ofNat]
    omega
  refine ⟨⟨0x00, rfl, by decide, fun he => absurd he not_errorCode_ok⟩,
    hlength, hlegal, by simp [okBaud], fun a ha => ?_, by simp [okBaud]⟩
  obtain rfl := Option.some.inj ha
  rw [hach]
  exact ⟨hlow, hhigh⟩

theorem responseLegal_payloadResponse {st : Status} (hst : st.isError = false) {bs : List Byte}
    (hfits : bs.length + 2 ≤ maxPacket.toNat) : responseLegal maxPacket (payloadResponse st.code bs) := by
  refine ⟨⟨st.code, rfl, st.code_le, fun he => absurd he (not_errorCode_of_isError_eq_false hst rfl)⟩,
    by simp [payloadResponse], by simp [payloadResponse], by simp [payloadResponse], by simp [payloadResponse],
    fun bs' hbs => ?_⟩
  obtain rfl := Option.some.inj hbs
  exact ⟨rfl, hfits⟩

theorem responseLegal_withArgument {α : Type} {arg : Option α} {body : α → Response}
    (h : ∀ a, arg = some a → responseLegal maxPacket (body a)) :
    responseLegal maxPacket (withArgument arg body) := by
  obtain ⟨_, hr⟩ | ⟨a, ha, hr⟩ := withArgument_cases arg body <;> rw [hr]
  · exact responseLegal_raise _
  · exact h a ha

theorem responseLegal_withTolerance {b : BaudResult} {body : BaudResult → Response}
    (h : responseLegal maxPacket (body b)) : responseLegal maxPacket (withTolerance b body) := by
  obtain ⟨_, hr⟩ | ⟨_, hr⟩ := withTolerance_cases b body <;> rw [hr]
  · exact responseLegal_raise _
  · exact h

end shapes

/-! ### The response of each command -/

/-- The codes lie inside the mask, so their OR does (40_line_encoding.md R105). -/
theorem lineEncode_and_mask (c : LineConfig) : lineEncode c &&& 0x4F0F = lineEncode c := by
  have hdata : dataBitsCode c.dataBits &&& 0x4F0F = dataBitsCode c.dataBits := by cases c.dataBits <;> rfl
  have hparity : parityCode c.parity <<< 8 &&& (0x4F0F : Half) = parityCode c.parity <<< 8 := by
    cases c.parity <;> rfl
  have hstop : stopCode c.stopBits <<< 11 &&& (0x4F0F : Half) = stopCode c.stopBits <<< 11 := by
    cases c.stopBits <;> rfl
  have hbreak : breakCode c.brk <<< 14 &&& (0x4F0F : Half) = breakCode c.brk <<< 14 := by cases c.brk <;> rfl
  rw [lineEncode, BitVec.and_comm, BitVec.and_or_distrib_left, BitVec.and_or_distrib_left,
    BitVec.and_or_distrib_left]
  simp only [BitVec.and_comm 0x4F0F, hdata, hparity, hstop, hbreak]

theorem baudRateOf_pos {baud : Word} {b : Nat} (h : baudRateOf baud = some b) : 0 < b := by
  have hpos := (isSome_baudRateOf baud).mp (Option.isSome_of_mem h)
  rw [baudRateOf_eq, if_neg (not_le.mpr hpos)] at h
  have := Option.some.inj h
  omega

/-- A BaudResult of a positive rate, of any family, with any legal requests (41_baud_encoding.md R155). -/
theorem responseLegal_okBaud_baudEncode {maxPacket : Half} {b : Nat} (hb : 0 < b) (f : Family)
    (portIndex : BitVec 8) {qs : List ControlRequest} (hlength : qs.length ≤ 4)
    (hlegal : ∀ q ∈ qs, requestLegal q) : responseLegal maxPacket (okBaud (baudEncode b f portIndex) qs) := by
  obtain ⟨hlow, hhigh⟩ := encodedRate_ach_bounds hb f
  exact responseLegal_okBaud hlow (hhigh.trans (by split <;> decide)) hlength hlegal

theorem reqModemCtrlResponse_legal (maxPacket : Half) (dtr rts : BitVec 2) :
    responseLegal maxPacket (reqModemCtrlResponse dtr rts) := by
  refine responseLegal_withArgument fun d _ => responseLegal_withArgument fun r _ => ?_
  split
  · exact responseLegal_raise _
  · exact responseLegal_okRequests (by simp) (by simp [requestLegal_modemRequest])

/-- All four requests of REQ_CONFIGURE have the form of the table (42_control_requests.md R187). -/
theorem reqConfigureResponse_legal (maxPacket : Half) (portIndex : BitVec 8) (fam : BitVec 2) (dbits : BitVec 4)
    (par : BitVec 3) (stop : BitVec 2) (brk : BitVec 1) (flow : BitVec 3) (dtr rts : BitVec 2) (baud : Word) :
    responseLegal maxPacket (reqConfigureResponse portIndex fam dbits par stop brk flow dtr rts baud) := by
  rw [reqConfigureResponse_eq_afterLine]
  refine responseLegal_withArgument fun f _ => responseLegal_withArgument fun b hb =>
    responseLegal_withArgument fun c _ => responseLegal_withArgument fun m _ =>
    responseLegal_withArgument fun d _ => responseLegal_withArgument fun r _ =>
    responseLegal_withTolerance (responseLegal_okBaud_baudEncode (baudRateOf_pos hb) f portIndex ?_ ?_)
  · split <;> simp
  · have hline : requestLegal (outRequest sioSetData (lineEncode c) 0#16) := requestLegal_lineRequest c
    split <;>
      simp [hline, requestLegal_baudRequest, requestLegal_flowRequest, requestLegal_modemRequest]

/-- The payload of an accepted frame is at least a header shorter than the endpoint's packet, if the packet is
not shorter than a header itself (43_frame_strip.md R216, 70_reset_and_hazards.md R275). -/
theorem stripFrameResponse_legal {maxPacket : Half} (hmax : 2 ≤ maxPacket.toNat) {frame : Memory} {nread : Half}
    {r : Response} (h : stripFrameResponse maxPacket frame nread = .ok r) : responseLegal maxPacket r := by
  obtain rfl := Except.ok.inj ((stripFrameResponse_eq _ _ _).symm.trans h)
  split
  · exact responseLegal_raise .invalidArgument
  split
  · exact responseLegal_raise .invalidArgument
  rename_i hcount
  split
  · exact responseLegal_payloadResponse (st := .shortFrame) rfl hmax
  · refine responseLegal_payloadResponse (st := .ok) rfl ?_
    rw [frame.payload_length (not_lt.mp hcount)]
    omega

/-- Every response of a command but STRIP_FRAME keeps the contract, whatever MAX_PACKET is. -/
theorem commandResponse_legal_of_ne_stripFrame {portIndex : BitVec 8} {maxPacket : Half} {tx : Transaction}
    {i : Instr} {r : Response} (hi : i ≠ .stripFrame)
    (h : commandResponse portIndex maxPacket tx i = .ok r) : responseLegal maxPacket r := by
  cases i with
  | reqReset => cases h; exact responseLegal_okRequests (by simp) (by simp [requestLegal_resetRequest])
  | reqModemCtrl dtr rts => cases h; exact reqModemCtrlResponse_legal maxPacket dtr rts
  | reqFlowCtrl flow =>
      cases h
      exact responseLegal_withArgument fun m _ =>
        responseLegal_okRequests (by simp) (by simp [requestLegal_flowRequest])
  | reqSetBaud fam =>
      cases h
      exact responseLegal_withArgument fun f _ => responseLegal_withArgument fun b hb =>
        responseLegal_withTolerance <| responseLegal_okBaud_baudEncode (baudRateOf_pos hb) f portIndex
          (qs := [baudRequest _]) (by simp) (by simp [requestLegal_baudRequest])
  | reqSetLine dbits par stop brk =>
      cases h
      exact responseLegal_withArgument fun c _ =>
        responseLegal_okRequests (by simp) (by simp [requestLegal_lineRequest])
  | reqPollStatus => cases h; exact responseLegal_okRequests (by simp) (by simp [requestLegal_pollRequest])
  | reqConfigure fam dbits par stop brk flow dtr rts => cases h; exact reqConfigureResponse_legal ..
  | encLine dbits par stop brk =>
      cases h
      exact responseLegal_withArgument fun c _ => responseLegal_okLineValue (lineEncode_and_mask c)
  | encBaud fam =>
      cases h
      exact responseLegal_withArgument fun f _ => responseLegal_withArgument fun b hb =>
        responseLegal_okBaud_baudEncode (baudRateOf_pos hb) f portIndex (qs := []) (by simp) (by simp)
  | stripFrame => exact absurd rfl hi

/-- With a legal MAX_PACKET every response of the block keeps the contract, whatever the word. -/
theorem transactionResponse_legal {portIndex : BitVec 8} {maxPacket : Half} (hmax : 2 ≤ maxPacket.toNat)
    {tx : Transaction} {r : Response} (h : transactionResponse portIndex maxPacket tx = .ok r) :
    responseLegal maxPacket r := by
  cases hd : decode tx.cmd with
  | error why =>
      rw [transactionResponse_of_decode_error hd] at h
      cases h
      exact responseLegal_raise .illegalCommand
  | ok i =>
      rw [transactionResponse_of_decode_ok hd] at h
      by_cases hi : i = .stripFrame
      · subst hi
        exact stripFrameResponse_legal hmax h
      · exact commandResponse_legal_of_ne_stripFrame hi h

/-! ### The statements on requests and on the invariant -/

/-- STRIP_FRAME emits no request: its responses are a status alone or a payload (43_frame_strip.md R215). -/
theorem stripFrameResponse_reqs {maxPacket : Half} {frame : Memory} {nread : Half} {r : Response}
    (h : stripFrameResponse maxPacket frame nread = .ok r) : r.reqs = [] := by
  obtain rfl := Except.ok.inj ((stripFrameResponse_eq _ _ _).symm.trans h)
  split
  · rfl
  split
  · rfl
  split <;> rfl

/-- Settles O39: the part of the contract that speaks of requests; STRIP_FRAME emits none. -/
theorem everyRequestHasItsTableForm : Obligations.EveryRequestHasItsTableForm := by
  intro i s t h
  obtain ⟨tx, _, _, hr⟩ := commandResponse_of_exec h
  by_cases hi : i = .stripFrame
  · subst hi
    simp [stripFrameResponse_reqs hr]
  · obtain ⟨_, hlength, hlegal, _⟩ := commandResponse_legal_of_ne_stripFrame hi hr
    exact ⟨hlength, hlegal⟩

/-- Settles O50: a step keeps the parameters and the frames, and the one response it adds keeps the
contract. -/
theorem everyStepKeepsTheMachineInvariant : Obligations.EveryStepKeepsTheMachineInvariant := by
  rintro s t ⟨hmax, hmemory, hresponses⟩ h
  obtain ⟨_, rfl⟩ | ⟨tx, rest, r, hp, hr, rfl⟩ := step_next_cases h
  · exact ⟨hmax, hmemory, hresponses⟩
  · refine ⟨hmax, State.memoryWf_answered hp hmemory, fun e he => ?_⟩
    rw [State.answered_completed, List.mem_append, List.mem_singleton] at he
    obtain he | rfl := he
    · exact hresponses e he
    · exact transactionResponse_legal hmax hr

/-- Settles O51: MAX_PACKET at reset is at least 2 by its definition, and reset leaves no frame and no
response. -/
theorem resetMeetsTheMachineInvariant : Obligations.ResetMeetsTheMachineInvariant := by
  refine ⟨?_, State.memoryWf_reset, by simp⟩
  have hbound := Config.maxPacketAboveTwo.isLt
  rw [legalInstance, State.reset_maxPacket, Config.maxPacket, BitVec.toNat_ofNat]
  omega

end Sys2Proof.Machine
end

section
/-!
# Commands that complete (40_line_encoding.md, 42_control_requests.md)

What each command answers when its fields are legal. The first part treats the commands without a rate, the
second REQ_SET_BAUD and REQ_CONFIGURE within and outside the tolerance, the third compares the codes of two line
configurations, and the last settles the statements.
-/

namespace Sys2Proof.Machine

/-- A command answers the presented transaction with its `commandResponse`. -/
theorem exec_of_commandResponse {i : Instr} {s : State} {tx : Transaction} {rest : List Transaction}
    {r : Response} (hp : s.presented = tx :: rest)
    (hr : commandResponse s.portIndex s.maxPacket tx i = .ok r) :
    exec i s = .next (s.answered tx rest r) := by
  rw [exec_eq_answer_commandResponse]
  exact answer_cons hp hr

/-! ### Commands without a rate -/

/-- The pattern of a legal selector: the mask of a selected line, and the level of a line driven high
(42_control_requests.md R175, R176). -/
theorem selectorPattern_of_selLegal {sel : BitVec 2} (h : selLegal sel = true) :
    selectorPattern sel.toNat = (if sel = 0 then 0 else 0x0100) + if sel = 3 then 0x0001 else 0 := by
  revert sel
  decide

/-- With legal selectors that select a line, REQ_MODEM_CTRL emits its request (42_control_requests.md R177). -/
theorem reqModemCtrlResponse_of_legal {dtr rts : BitVec 2} (hdtr : selLegal dtr = true)
    (hrts : selLegal rts = true) (hsome : someLineSelected dtr rts = true) :
    reqModemCtrlResponse dtr rts = okRequests [⟨.out, 0x01,
      BitVec.ofNat 16 ((if dtr = 0 then 0 else 0x0100) + (if rts = 0 then 0 else 0x0200)
        + (if dtr = 3 then 0x0001 else 0) + (if rts = 3 then 0x0002 else 0)), 0x0000, 0⟩] := by
  have hvalue : selectorPattern dtr.toNat + 2 * selectorPattern rts.toNat =
      (if dtr = 0 then 0 else 0x0100) + (if rts = 0 then 0 else 0x0200)
        + (if dtr = 3 then 0x0001 else 0) + if rts = 3 then 0x0002 else 0 := by
    rw [selectorPattern_of_selLegal hdtr, selectorPattern_of_selLegal hrts]
    split_ifs <;> rfl
  have hline : ¬ (dtr.toNat = 0 ∧ rts.toNat = 0) := by
    simp only [someLineSelected, Bool.or_eq_true, decide_eq_true_eq] at hsome
    omega
  rw [reqModemCtrlResponse_eq, if_neg (of_decide_eq_true hdtr), if_neg (of_decide_eq_true hrts), if_neg hline,
    hvalue]

theorem flowLegal_iff (flow : BitVec 3) : flowLegal flow = true ↔
    flow.toNat = 0 ∨ flow.toNat = 1 ∨ flow.toNat = 2 ∨ flow.toNat = 4 := by
  simp [flowLegal, or_assoc]

theorem lineLegal_iff (dbits : BitVec 4) (par : BitVec 3) (stop : BitVec 2) :
    lineLegal dbits par stop = true ↔
      (dbits.toNat = 7 ∨ dbits.toNat = 8) ∧ par.toNat ≤ 4 ∧ stop.toNat ≤ 2 := by
  simp [lineLegal, dbitsLegal, parLegal, stopLegal, and_assoc]

/-- What a command that uses the packed value only answers on legal line fields (30_encoding.md R76 to R79). -/
theorem withArgument_lineConfigOf_of_legal {dbits : BitVec 4} {par : BitVec 3} {stop : BitVec 2}
    (hline : lineLegal dbits par stop = true) (brk : BitVec 1) (respond : Half → Response) :
    withArgument (lineConfigOf dbits par stop brk) (fun c => respond (lineEncode c)) =
      respond (BitVec.ofNat 16 (dbits.toNat + par.toNat * 0x100 + (if stop = 0 then 0 else 0x0800)
        + brk.toNat * 0x4000)) := by
  obtain ⟨hdbits, hpar, hstop⟩ := (lineLegal_iff dbits par stop).mp hline
  have hzero : stop.toNat = 0 ↔ stop = 0 := BitVec.toNat_inj (y := 0)
  rw [withArgument_lineConfigOf, if_neg (not_not.mpr hdbits), if_neg (not_lt.mpr hpar),
    if_neg (not_lt.mpr hstop)]
  simp only [hzero]

/-! ### REQ_SET_BAUD and REQ_CONFIGURE -/

theorem familyOf_of_famLegal {fam : BitVec 2} (h : famLegal fam = true) : familyOf fam = some (famValue fam) := by
  rw [familyOf_eq, if_neg ((famLegal_iff fam).mp h)]

theorem baudRateOf_of_pos {baud : Word} (h : 0 < baud.toInt) : baudRateOf baud = some baud.toInt.toNat := by
  rw [baudRateOf_eq, if_neg (not_le.mpr h)]

/-- With a legal family and a positive rate, only the tolerance decides (42_control_requests.md R181). -/
theorem reqSetBaudResponse_of_legal {fam : BitVec 2} {baud : Word} (portIndex : BitVec 8)
    (hfam : famLegal fam = true) (hbaud : 0 < baud.toInt) :
    reqSetBaudResponse portIndex fam baud =
      withTolerance (baudEncode baud.toInt.toNat (famValue fam) portIndex) fun res =>
        okBaud res [baudRequest res] := by
  rw [reqSetBaudResponse, familyOf_of_famLegal hfam, baudRateOf_of_pos hbaud]
  rfl

/-- With every field legal, only the tolerance decides (42_control_requests.md R187). -/
theorem reqConfigureResponse_of_legal {fam : BitVec 2} {dbits : BitVec 4} {par : BitVec 3} {stop : BitVec 2}
    {brk : BitVec 1} {flow : BitVec 3} {dtr rts : BitVec 2} {baud : Word} {c : LineConfig} {m : FlowMode}
    {d r : LineSel} (portIndex : BitVec 8) (hfam : famLegal fam = true) (hbaud : 0 < baud.toInt)
    (hc : lineConfigOf dbits par stop brk = some c) (hm : flowModeOf flow = some m)
    (hd : lineSelOf dtr = some d) (hr : lineSelOf rts = some r) :
    reqConfigureResponse portIndex fam dbits par stop brk flow dtr rts baud =
      withTolerance (baudEncode baud.toInt.toNat (famValue fam) portIndex) fun res =>
        okBaud res ([lineRequest c, baudRequest res, flowRequest m] ++
          if bothKeep d r then [] else [modemRequest d r]) := by
  rw [reqConfigureResponse_eq_afterLine, familyOf_of_famLegal hfam, baudRateOf_of_pos hbaud, hc]
  simp only [withArgument_some, configureAfterLine, hm, hd, hr]
  rfl

/-- The tolerance check lets a rate within 3% pass (60_exceptions.md R234). -/
theorem withTolerance_of_inTolerance {tx : Transaction} {fam : BitVec 2} {portIndex : BitVec 8}
    {body : BaudResult → Response} (hfam : famLegal fam = true) (hbaud : 0 < tx.baud.toInt)
    (htol : ¬ rateOutOfTolerance tx fam) :
    withTolerance (baudEncode tx.baud.toInt.toNat (famValue fam) portIndex) body =
      body (baudEncode tx.baud.toInt.toNat (famValue fam) portIndex) := by
  rw [← tolOk_baudEncode_iff portIndex (familyOf_of_famLegal hfam) (baudRateOf_of_pos hbaud)] at htol
  exact if_pos (Bool.eq_true_of_not_eq_false htol)

/-- The tolerance check refuses any other rate (60_exceptions.md R234). -/
theorem withTolerance_of_outOfTolerance {tx : Transaction} {fam : BitVec 2} {portIndex : BitVec 8}
    {body : BaudResult → Response} (hfam : famLegal fam = true) (hbaud : 0 < tx.baud.toInt)
    (htol : rateOutOfTolerance tx fam) :
    withTolerance (baudEncode tx.baud.toInt.toNat (famValue fam) portIndex) body = statusOnly 0x02 := by
  rw [← tolOk_baudEncode_iff portIndex (familyOf_of_famLegal hfam) (baudRateOf_of_pos hbaud)] at htol
  exact if_neg (Bool.not_eq_true _ ▸ htol)

/-- The selectors that select no line are both zero (42_control_requests.md R187). -/
theorem bothKeep_iff {dtr rts : BitVec 2} {d r : LineSel} (hd : lineSelOf dtr = some d)
    (hr : lineSelOf rts = some r) : bothKeep d r = true ↔ dtr = 0 ∧ rts = 0 := by
  have hzero (sel : BitVec 2) : sel.toNat = 0 ↔ sel = 0 := BitVec.toNat_inj (y := 0)
  simp [bothKeep, eq_keep_iff hd, eq_keep_iff hr, hzero]

/-- The values of the fields of a REQ_CONFIGURE with legal fields. -/
theorem reqConfigure_fields_of_wellFormed {fam : BitVec 2} {dbits : BitVec 4} {par : BitVec 3}
    {stop : BitVec 2} {brk : BitVec 1} {flow : BitVec 3} {dtr rts : BitVec 2}
    (h : (Instr.reqConfigure fam dbits par stop brk flow dtr rts).wellFormed = true) :
    ∃ c m d r, lineConfigOf dbits par stop brk = some c ∧ flowModeOf flow = some m ∧
      lineSelOf dtr = some d ∧ lineSelOf rts = some r := by
  obtain ⟨hline, hflow, hdtr, hrts⟩ := isSome_fields_of_reqConfigure_wellFormed h
  obtain ⟨c, hc⟩ := Option.isSome_iff_exists.mp hline
  obtain ⟨m, hm⟩ := Option.isSome_iff_exists.mp hflow
  obtain ⟨d, hd⟩ := Option.isSome_iff_exists.mp hdtr
  obtain ⟨r, hr⟩ := Option.isSome_iff_exists.mp hrts
  exact ⟨c, m, d, r, hc, hm, hd, hr⟩

/-- REQ_SET_BAUD completes within the tolerance (42_control_requests.md R181). -/
theorem exec_reqSetBaud_inTolerance {s : State} {tx : Transaction} {rest : List Transaction} {fam : BitVec 2}
    (hp : s.presented = tx :: rest) (hfam : famLegal fam = true) (hbaud : 0 < tx.baud.toInt)
    (htol : ¬ rateOutOfTolerance tx fam) :
    let b := baudEncode tx.baud.toInt.toNat (famValue fam) s.portIndex
    exec (.reqSetBaud fam) s = .next (s.answered tx rest (okBaud b [baudRequest b])) := by
  intro b
  refine exec_of_commandResponse hp (congrArg Except.ok ?_)
  rw [reqSetBaudResponse_of_legal _ hfam hbaud]
  exact withTolerance_of_inTolerance hfam hbaud htol

/-- REQ_CONFIGURE completes within the tolerance (42_control_requests.md R187). -/
theorem exec_reqConfigure_inTolerance {s : State} {tx : Transaction} {rest : List Transaction}
    {fam : BitVec 2} {dbits : BitVec 4} {par : BitVec 3} {stop : BitVec 2} {brk : BitVec 1} {flow : BitVec 3}
    {dtr rts : BitVec 2} {c : LineConfig} {m : FlowMode} {d r : LineSel} (hp : s.presented = tx :: rest)
    (hfam : famLegal fam = true) (hbaud : 0 < tx.baud.toInt) (htol : ¬ rateOutOfTolerance tx fam)
    (hc : lineConfigOf dbits par stop brk = some c) (hm : flowModeOf flow = some m)
    (hd : lineSelOf dtr = some d) (hr : lineSelOf rts = some r) :
    let b := baudEncode tx.baud.toInt.toNat (famValue fam) s.portIndex
    exec (.reqConfigure fam dbits par stop brk flow dtr rts) s = .next (s.answered tx rest (okBaud b
      ([lineRequest c, baudRequest b, flowRequest m] ++
        if dtr = 0 ∧ rts = 0 then [] else [modemRequest d r]))) := by
  intro b
  refine exec_of_commandResponse hp (congrArg Except.ok ?_)
  rw [reqConfigureResponse_of_legal _ hfam hbaud hc hm hd hr]
  simp only [bothKeep_iff hd hr]
  exact withTolerance_of_inTolerance hfam hbaud htol

/-- A REQ_CONFIGURE answered OK passed every check (60_exceptions.md R232 to R235). -/
theorem legal_of_reqConfigure_ok {portIndex : BitVec 8} {maxPacket : Half} {tx : Transaction} {r : Response}
    {fam : BitVec 2} {dbits : BitVec 4} {par : BitVec 3} {stop : BitVec 2} {brk : BitVec 1} {flow : BitVec 3}
    {dtr rts : BitVec 2}
    (h : commandResponse portIndex maxPacket tx (.reqConfigure fam dbits par stop brk flow dtr rts) = .ok r)
    (hok : r.status = some 0x00) :
    (Instr.reqConfigure fam dbits par stop brk flow dtr rts).wellFormed = true ∧ 0 < tx.baud.toInt ∧
      ¬ rateOutOfTolerance tx fam := by
  cases commandResponse_verdict h with
  | illegal => exact absurd hok (by decide)
  | refused => exact absurd hok (by decide)
  | completed _ hlegal hrate _ =>
      obtain ⟨hwf, hbaud, _⟩ := hlegal
      exact ⟨hwf, hbaud rfl, fun h => hrate ((rateCause_iff rfl rfl).mpr h)⟩

theorem famLegal_of_reqConfigure_wellFormed {fam : BitVec 2} {dbits : BitVec 4} {par : BitVec 3}
    {stop : BitVec 2} {brk : BitVec 1} {flow : BitVec 3} {dtr rts : BitVec 2}
    (h : (Instr.reqConfigure fam dbits par stop brk flow dtr rts).wellFormed = true) : famLegal fam = true := by
  simp only [Instr.wellFormed, Bool.and_eq_true] at h
  obtain ⟨⟨⟨⟨hfam, _⟩, _⟩, _⟩, _⟩ := h
  exact hfam

/-! ### Line configurations that pack alike -/

theorem dataBitsCode_injective : Function.Injective dataBitsCode := by
  intro d d'
  cases d <;> cases d' <;> decide

theorem parityCode_injective : Function.Injective parityCode := by
  intro p p'
  cases p <;> cases p' <;> decide

theorem breakCode_injective : Function.Injective breakCode := by decide

/-- The stop-bit code tells one stop bit from more than one (40_line_encoding.md R103). -/
theorem stopCode_eq_iff (st st' : StopBits) : stopCode st = stopCode st' ↔ (st = .one ↔ st' = .one) := by
  cases st <;> cases st' <;> decide

/-- Each code is read back from its own bits, so configurations pack alike when their codes are the same. -/
theorem lineEncode_eq_iff (c c' : LineConfig) :
    lineEncode c = lineEncode c' ↔
      dataBitsCode c.dataBits = dataBitsCode c'.dataBits ∧ parityCode c.parity = parityCode c'.parity ∧
        stopCode c.stopBits = stopCode c'.stopBits ∧ breakCode c.brk = breakCode c'.brk := by
  constructor
  · intro h
    obtain ⟨hd, hp, hs, hb⟩ := lineEncode_fields c
    obtain ⟨hd', hp', hs', hb'⟩ := lineEncode_fields c'
    rw [h] at hd hp hs hb
    exact ⟨BitVec.eq_of_toNat_eq (hd.symm.trans hd'), BitVec.eq_of_toNat_eq (hp.symm.trans hp'),
      BitVec.eq_of_toNat_eq (hs.symm.trans hs'), BitVec.eq_of_toNat_eq (hb.symm.trans hb')⟩
  · rintro ⟨hd, hp, hs, hb⟩
    rw [lineEncode, hd, hp, hs, hb, lineEncode]

/-- The least and the greatest value of a packed configuration (40_line_encoding.md R105). -/
theorem lineEncode_range (c : LineConfig) : 0x0007 ≤ (lineEncode c).toNat ∧ (lineEncode c).toNat ≤ 0x4C08 := by
  have hd : 7 ≤ (dataBitsCode c.dataBits).toNat ∧ (dataBitsCode c.dataBits).toNat ≤ 8 := by
    cases c.dataBits <;> decide
  have hp : (parityCode c.parity).toNat ≤ 4 := by cases c.parity <;> decide
  have hs : (stopCode c.stopBits).toNat ≤ 1 := by cases c.stopBits <;> decide
  have hb : (breakCode c.brk).toNat ≤ 1 := by cases c.brk <;> decide
  rw [lineEncode_toNat]
  omega

/-! ### The statements on commands that complete -/

/-- Settles O22: the two commands use no field and no operand. -/
theorem resetAndPollComplete : Obligations.ResetAndPollComplete :=
  fun _ _ _ hp => ⟨exec_of_commandResponse hp rfl, exec_of_commandResponse hp rfl⟩

/-- Settles O23: legal selectors and a legal mode pass the checks of `reqModemCtrlResponse_eq` and
`reqFlowCtrlResponse_eq`. -/
theorem modemAndFlowControlComplete : Obligations.ModemAndFlowControlComplete := by
  intro s tx rest hp
  refine ⟨fun dtr rts hdtr hrts hsome => ?_, fun flow hflow => ?_⟩
  · exact exec_of_commandResponse hp (congrArg Except.ok (reqModemCtrlResponse_of_legal hdtr hrts hsome))
  · refine exec_of_commandResponse hp (congrArg Except.ok ?_)
    rw [reqFlowCtrlResponse_eq, if_neg (not_not.mpr ((flowLegal_iff flow).mp hflow))]

/-- Settles O24: both commands use the packed value only. -/
theorem lineCommandsComplete : Obligations.LineCommandsComplete := by
  intro s tx rest dbits par stop brk hp hline v
  exact ⟨
    exec_of_commandResponse hp (congrArg Except.ok
      (withArgument_lineConfigOf_of_legal hline brk fun v => okLineValue v)),
    exec_of_commandResponse hp (congrArg Except.ok
      (withArgument_lineConfigOf_of_legal hline brk fun v => okRequests [outRequest sioSetData v 0x0000]))⟩

/-- Settles O26: with legal arguments only the tolerance check decides between the two answers. -/
theorem baudRequestsCompleteWithinTolerance : Obligations.BaudRequestsCompleteWithinTolerance := by
  intro s tx rest fam hp hfam hbaud b
  refine ⟨fun htol => ⟨exec_reqSetBaud_inTolerance hp hfam hbaud htol, ?_⟩, fun htol => ⟨?_, ?_⟩⟩
  · intro dbits par stop brk flow dtr rts hwf
    obtain ⟨c, m, d, r, hc, hm, hd, hr⟩ := reqConfigure_fields_of_wellFormed hwf
    exact ⟨c, m, d, r, hc, hm, hd, hr, exec_reqConfigure_inTolerance hp hfam hbaud htol hc hm hd hr⟩
  · refine exec_of_commandResponse hp (congrArg Except.ok ?_)
    rw [reqSetBaudResponse_of_legal _ hfam hbaud]
    exact withTolerance_of_outOfTolerance hfam hbaud htol
  · intro dbits par stop brk flow dtr rts hwf
    obtain ⟨c, m, d, r, hc, hm, hd, hr⟩ := reqConfigure_fields_of_wellFormed hwf
    refine exec_of_commandResponse hp (congrArg Except.ok ?_)
    rw [reqConfigureResponse_of_legal _ hfam hbaud hc hm hd hr]
    exact withTolerance_of_outOfTolerance hfam hbaud htol

/-- Settles O28: an OK answer means that every check passed, and then each of the four commands emits its own
request. -/
theorem configureIsTheConcatenationOfFourCommands : Obligations.ConfigureIsTheConcatenationOfFourCommands := by
  intro s t fam dbits par stop brk flow dtr rts h hok
  obtain ⟨tx, rest, hp, hresponse⟩ := commandResponse_of_exec h
  obtain ⟨hwf, hbaud, htol⟩ := legal_of_reqConfigure_ok hresponse hok
  have hfam := famLegal_of_reqConfigure_wellFormed hwf
  obtain ⟨c, m, d, r, hc, hm, hd, hr⟩ := reqConfigure_fields_of_wellFormed hwf
  obtain rfl := Host.Outcome.next.inj
    (h.symm.trans (exec_reqConfigure_inTolerance hp hfam hbaud htol hc hm hd hr))
  have hline : reqSetLineResponse dbits par stop brk = okRequests [lineRequest c] := by
    rw [reqSetLineResponse, hc]
    rfl
  have hflow : reqFlowCtrlResponse flow = okRequests [flowRequest m] := by
    rw [reqFlowCtrlResponse, hm]
    rfl
  refine ⟨_, _, _, exec_of_commandResponse hp (congrArg Except.ok hline),
    exec_reqSetBaud_inTolerance hp hfam hbaud htol, exec_of_commandResponse hp (congrArg Except.ok hflow),
    fun hkeep => ?_, fun hkeep => ?_⟩
  · simp only [State.answered_lastResponse, okBaud, if_pos hkeep]
    rfl
  · have hmodem : reqModemCtrlResponse dtr rts = okRequests [modemRequest d r] := by
      rw [reqModemCtrlResponse, hd, hr, withArgument_some, withArgument_some,
        if_neg (fun h => hkeep ((bothKeep_iff hd hr).mp h))]
      rfl
    refine ⟨_, exec_of_commandResponse hp (congrArg Except.ok hmodem), ?_⟩
    simp only [State.answered_lastResponse, okBaud, if_neg hkeep]
    rfl

/-- Settles O30: the mask and the range of the codes, and the codes that differ. -/
theorem lineEncodeIsInjectiveUpToStopBits : Obligations.LineEncodeIsInjectiveUpToStopBits := by
  intro c c'
  refine ⟨⟨?_, lineEncode_range c⟩, ?_⟩
  · rw [← lineEncode_and_mask c, BitVec.and_assoc]
    exact BitVec.and_zero
  · rw [lineEncode_eq_iff, dataBitsCode_injective.eq_iff, parityCode_injective.eq_iff,
      breakCode_injective.eq_iff, stopCode_eq_iff]
    tauto

/-- Settles O40: the selectors and the patterns, evaluated. -/
theorem modemValuesAreThePatterns : Obligations.ModemValuesAreThePatterns := by
  unfold Obligations.ModemValuesAreThePatterns
  decide

end Sys2Proof.Machine
end

section
/-!
# Frames and payloads (20_memory.md section 1, 43_frame_strip.md section 3)

The response to an accepted frame is its payload, with a status that depends on the count alone. The first part
says so; the second settles the statements on frame reads and on the payload.
-/

namespace Sys2Proof.Machine

/-! ### The response to an accepted frame -/

/-- A count below the header gives the empty payload (43_frame_strip.md R213). -/
theorem Memory.payload_eq_nil (m : Memory) {n : Nat} (hn : n < 2) (hle : n ≤ m.flen) : m.payload n = [] := by
  rw [← List.length_eq_zero_iff, m.payload_length hle]
  omega

/-- The payload is determined by the bytes from 2 up to the count (43_frame_strip.md R216). -/
theorem Memory.payload_congr {m m' : Memory} {n : Nat} (hn : n ≤ m.flen) (hn' : n ≤ m'.flen)
    (h : ∀ i, 2 ≤ i → i < n → m.byteAt i = m'.byteAt i) : m.payload n = m'.payload n := by
  rw [m.payload_eq_map hn, m'.payload_eq_map hn']
  refine List.map_congr_left fun j hj => h (2 + j) (by omega) ?_
  have := List.mem_range.mp hj
  omega

/-- On an accepted frame STRIP_FRAME answers the payload (43_frame_strip.md R213, R214). -/
theorem stripFrameResponse_of_accepted {maxPacket : Half} {frame : Memory} {nread : Half}
    (hflen : frame.flen ≤ maxPacket.toNat) (hcount : nread.toNat ≤ frame.flen) :
    stripFrameResponse maxPacket frame nread =
      .ok (payloadResponse (if nread.toNat < 2 then 0x04 else 0x00) (frame.payload nread.toNat)) := by
  rw [stripFrameResponse_eq, if_neg (not_lt.mpr hflen), if_neg (not_lt.mpr hcount)]
  by_cases hshort : nread.toNat < 2
  · rw [if_pos hshort, if_pos hshort, frame.payload_eq_nil hshort hcount]
  · rw [if_neg hshort, if_neg hshort]

/-- The response that STRIP_FRAME leaves on an accepted frame. -/
theorem lastResponse_of_accepted {s t : State} {tx : Transaction} {rest : List Transaction}
    (hp : s.presented = tx :: rest) (hflen : tx.frame.flen ≤ s.maxPacket.toNat)
    (hcount : tx.nread.toNat ≤ tx.frame.flen) (h : exec .stripFrame s = .next t) :
    t.lastResponse =
      payloadResponse (if tx.nread.toNat < 2 then 0x04 else 0x00) (tx.frame.payload tx.nread.toNat) :=
  (Except.ok.inj ((stripFrameResponse_of_accepted hflen hcount).symm.trans
    (commandResponse_of_exec_cons hp h))).symm

/-- A host that takes PAYLOAD_LEN bytes of a payload that 16 bits count takes all of it
(70_reset_and_hazards.md R277). -/
theorem takePayload_payloadResponse (c : Byte) {bs : List Byte} (h : bs.length < 2 ^ 16) :
    takePayload (payloadResponse c bs) = .ok bs := by
  have hlength : (BitVec.ofNat 16 bs.length).toNat = bs.length := by
    rw [BitVec.toNat_ofNat, Nat.mod_eq_of_lt h]
  simp [takePayload, payloadResponse, Response.readPayload, Response.readPayloadLen, hlength]

/-! ### The statements on frames -/

/-- Settles O45: the byte of a frame made of a sequence is the byte of the sequence
(`Memory.byteAt_ofBytes`). -/
theorem frameReadsAreTheHostsBytes : Obligations.FrameReadsAreTheHostsBytes := by
  intro bs i
  refine ⟨fun h => ?_, fun h => if_neg (not_lt.mpr h)⟩
  rw [Memory.readByte, if_pos (show i < (Memory.ofBytes bs).flen from h), Memory.byteAt_ofBytes,
    List.getD_eq_getElem _ _ h]

/-- Settles O46: the response is a function of the count and the payload. -/
theorem payloadIgnoresHeaderAndStaleBytes : Obligations.PayloadIgnoresHeaderAndStaleBytes := by
  intro s s' t t' tx tx' rest rest' hp hp' hnread hflen hcount hflen' hcount' hbytes h h'
  rw [lastResponse_of_accepted hp hflen hcount h, lastResponse_of_accepted hp' hflen' hcount' h', ← hnread]
  rw [← hnread] at hcount'
  rw [Memory.payload_congr hcount hcount' hbytes]

/-- Settles O47: the payload is a header shorter than the count, which is inside the frame. -/
theorem payloadLengthIsTheCountLessTheHeader : Obligations.PayloadLengthIsTheCountLessTheHeader := by
  intro s t tx rest hp _ hflen hcount h
  have hlength := tx.frame.payload_length hcount
  have hsmall : (tx.frame.payload tx.nread.toNat).length < 2 ^ 16 := by
    have := tx.nread.isLt
    omega
  have hvalue : (BitVec.ofNat 16 (tx.frame.payload tx.nread.toNat).length).toNat =
      (tx.frame.payload tx.nread.toNat).length := by
    rw [BitVec.toNat_ofNat, Nat.mod_eq_of_lt hsmall]
  rw [lastResponse_of_accepted hp hflen hcount h]
  exact ⟨_, _, rfl, rfl, hvalue, by omega, by omega, takePayload_payloadResponse _ hsmall⟩

end Sys2Proof.Machine
end

section
/-!
# Submission and the session (60_exceptions.md R245 to R248)

The first part says what a run of submission steps leaves when the transport accepts them, and that a command
whose submission will fail never counts as submitted; the second which records make a session CONFIGURED; the
third follows one command from its response on; the fourth settles the statements on the host agent.
-/

namespace Sys2Proof.Machine

/-! ### Submission steps -/

/-- The host once the transport has accepted the requests `done`, with `later` still to submit: the command
counts as submitted with its last request. `submitOne_iterate_accepted` ties it to the model. -/
def HostAgent.afterAccepted (h : HostAgent) (done later : List ControlRequest)
    (more : List (Option TransportError)) : HostAgent :=
  { h with pending := later, submitted := h.submitted ++ done, transport := more,
           records := if done ≠ [] ∧ later = [] then markSubmitted h.records else h.records }

/-- Accepted requests are submitted in list order (60_exceptions.md R247). -/
theorem submitOne_iterate_accepted {h : HostAgent} {done later : List ControlRequest}
    {more : List (Option TransportError)} (hp : h.pending = done ++ later)
    (ht : h.transport = List.replicate done.length none ++ more) :
    HostAgent.submitOne^[done.length] h = h.afterAccepted done later more := by
  induction done generalizing h with
  | nil =>
      obtain rfl : h.pending = later := hp
      obtain rfl : h.transport = more := ht
      simp [HostAgent.afterAccepted]
  | cons q done ih =>
      rw [List.length_cons, Function.iterate_succ_apply, h.submitOne_ok q _ _ hp ht, ih rfl rfl]
      by_cases hdone : done = []
      · simp [HostAgent.afterAccepted, hdone]
      · simp [HostAgent.afterAccepted, hdone]

/-- The failure after the accepted requests abandons the rest (60_exceptions.md R247). -/
theorem submitOne_iterate_failed {h : HostAgent} {done later : List ControlRequest} {q : ControlRequest}
    {e : TransportError} {more : List (Option TransportError)} (hp : h.pending = done ++ q :: later)
    (ht : h.transport = List.replicate done.length none ++ some e :: more) :
    HostAgent.submitOne^[done.length + 1] h =
      { h.afterAccepted done (q :: later) (some e :: more) with
          pending := [], transport := more, failure := some e } := by
  rw [Function.iterate_succ_apply', submitOne_iterate_accepted hp ht]
  exact HostAgent.submitOne_failed _ q later more e rfl rfl

/-- The transport will fail one of the requests still to submit; `HostAgent.WillFail.submitOne` ties it to the
model. -/
def HostAgent.WillFail (h : HostAgent) : Prop :=
  ∃ k e more, k < h.pending.length ∧ h.transport = List.replicate k none ++ some e :: more

/-- A submission step on the way to a failure marks no command as submitted, and it either meets the failure or
is still on the way (60_exceptions.md R247). -/
theorem HostAgent.WillFail.submitOne {h : HostAgent} (hf : h.WillFail) :
    h.submitOne.records = h.records ∧ (h.submitOne.pending = [] ∨ h.submitOne.WillFail) := by
  obtain ⟨k, e, more, hk, ht⟩ := hf
  obtain ⟨q, rest, hp⟩ := List.exists_cons_of_length_pos (Nat.zero_lt_of_lt hk)
  cases k with
  | zero =>
      rw [h.submitOne_failed q rest more e hp ht]
      exact ⟨rfl, .inl rfl⟩
  | succ k =>
      have hrest : k < rest.length := by simpa [hp] using hk
      have hne : rest ≠ [] := List.ne_nil_of_length_pos (Nat.zero_lt_of_lt hrest)
      rw [h.submitOne_ok q rest _ hp ht]
      exact ⟨if_neg hne, .inr ⟨k, e, more, hrest, rfl⟩⟩

/-- A command whose submission will fail never counts as submitted. -/
theorem HostAgent.WillFail.iterate_records {h : HostAgent} (hf : h.WillFail) (n : Nat) :
    (HostAgent.submitOne^[n] h).records = h.records := by
  induction n generalizing h with
  | zero => rfl
  | succ n ih =>
      obtain ⟨hrecords, hnil | hf'⟩ := hf.submitOne
      · rw [Function.iterate_succ_apply, Function.iterate_fixed (h.submitOne.submitOne_nil hnil), hrecords]
      · rw [Function.iterate_succ_apply, ih hf', hrecords]

/-! ### The records that configure a session -/

theorem HostAgent.session_eq_configured_iff (h : HostAgent) :
    h.session = .configured ↔ h.mayBeConfigured = true := by
  simp [HostAgent.session]

theorem HostAgent.session_eq_unconfigured_iff (h : HostAgent) :
    h.session = .unconfigured ↔ ¬ h.mayBeConfigured = true := by
  simp [HostAgent.session]

/-- The opcodes that configure a session together (60_exceptions.md R248). -/
def sessionOpcodes : List Opcode := [.reqSetLine, .reqSetBaud, .reqFlowCtrl]

/-- The two ways to a configured session (60_exceptions.md R248). -/
theorem HostAgent.mayBeConfigured_iff (h : HostAgent) :
    h.mayBeConfigured = true ↔ h.records.any (·.succeeded .reqConfigure) = true ∨
      ∀ op ∈ sessionOpcodes, h.records.any (·.succeeded op) = true := by
  simp [HostAgent.mayBeConfigured, sessionOpcodes, and_assoc]

theorem CommandRecord.succeeded_iff (r : CommandRecord) (op : Opcode) :
    r.succeeded op = true ↔ r.cmd.extractLsb' 0 8 = op.code ∧ r.status = some 0x00 ∧ r.submitted = true := by
  simp only [CommandRecord.succeeded, Bool.and_eq_true, beq_iff_eq, and_assoc]
  rfl

/-- A record that succeeded at nothing leaves the session as it was (60_exceptions.md R248). -/
theorem HostAgent.session_of_records_cons {g h : HostAgent} {r : CommandRecord}
    (hrecords : g.records = r :: h.records) (hr : ∀ op, r.succeeded op = false) : g.session = h.session := by
  simp [HostAgent.session, HostAgent.mayBeConfigured, hrecords, hr]

theorem CommandRecord.succeeded_of_not_submitted (w : Word) (status : Option Byte) (op : Opcode) :
    (⟨w, status, false⟩ : CommandRecord).succeeded op = false := by
  simp [CommandRecord.succeeded]

/-- A host that has issued nothing is UNCONFIGURED (60_exceptions.md R248). -/
theorem HostAgent.session_of_records_nil {h : HostAgent} (hrecords : h.records = []) :
    h.session = .unconfigured := by
  simp [HostAgent.session, HostAgent.mayBeConfigured, hrecords]

/-- A record that takes an unconfigured session to CONFIGURED answered OK, and is of REQ_CONFIGURE or of the
last of the three opcodes (60_exceptions.md R248). -/
theorem HostAgent.configuring_record {g h : HostAgent} {r : CommandRecord}
    (hrecords : g.records = r :: h.records) (hbefore : h.session = .unconfigured)
    (hafter : g.session = .configured) :
    r.status = some 0x00 ∧ (r.cmd.extractLsb' 0 8 = Opcode.reqConfigure.code ∨
      ∀ op ∈ sessionOpcodes, r.cmd.extractLsb' 0 8 = op.code ∨ h.records.any (·.succeeded op) = true) := by
  have hsome : ∃ op, r.succeeded op = true := by
    by_contra hnone
    have hsame := HostAgent.session_of_records_cons hrecords fun op =>
      Bool.eq_false_of_not_eq_true fun hop => hnone ⟨op, hop⟩
    exact nomatch hafter.symm.trans (hsame.trans hbefore)
  obtain ⟨_, hop⟩ := hsome
  obtain ⟨_, hstatus, _⟩ := (r.succeeded_iff _).mp hop
  have hnot := h.session_eq_unconfigured_iff.mp hbefore
  have hmay := g.session_eq_configured_iff.mp hafter
  rw [HostAgent.mayBeConfigured_iff] at hnot hmay
  simp only [hrecords, List.any_cons, Bool.or_eq_true, CommandRecord.succeeded_iff r] at hmay
  refine ⟨hstatus, ?_⟩
  obtain (⟨hopc, _⟩ | hold) | hthree := hmay
  · exact .inl hopc
  · exact absurd (.inl hold) hnot
  · exact .inr fun op hmem => (hthree op hmem).imp_left And.left

/-! ### One command from its response on -/

/-- The host `g` while it submits the response `r` to the command `w` that the host `h` issued
(60_exceptions.md R247): requests are left, the rest was abandoned at a failure, or all are submitted. -/
inductive Submission (h : HostAgent) (w : Word) (r : Response) (g : HostAgent) : Prop where
  | underway (hrecords : g.records = ⟨w, r.status, false⟩ :: h.records)
      (hrequests : g.submitted ++ g.pending = h.submitted ++ r.reqs) (hp : g.pending ≠ [])
  | abandoned (hrecords : g.records = ⟨w, r.status, false⟩ :: h.records) (hp : g.pending = [])
  | finished (hrecords : g.records = ⟨w, r.status, true⟩ :: h.records)
      (hrequests : g.submitted = h.submitted ++ r.reqs) (hp : g.pending = [])

theorem submission_receive (h : HostAgent) (w : Word) (r : Response) : Submission h w r (h.receive w r) := by
  by_cases hreqs : r.reqs = []
  · exact .finished (by simp [hreqs]) (by simp [hreqs]) hreqs
  · exact .underway (by simp [hreqs]) rfl hreqs

theorem Submission.submitOne {h g : HostAgent} {w : Word} {r : Response} (hs : Submission h w r g) :
    Submission h w r g.submitOne := by
  cases hs with
  | abandoned hrecords hp => rw [g.submitOne_nil hp]; exact .abandoned hrecords hp
  | finished hrecords hrequests hp => rw [g.submitOne_nil hp]; exact .finished hrecords hrequests hp
  | underway hrecords hrequests hne =>
      obtain ⟨q, rest, hp⟩ := List.exists_cons_of_ne_nil hne
      cases ht : g.transport with
      | nil => rw [g.submitOne_blocked ht]; exact .underway hrecords hrequests hne
      | cons outcome more =>
          cases outcome with
          | some e => rw [g.submitOne_failed q rest more e hp ht]; exact .abandoned hrecords rfl
          | none =>
              rw [hp] at hrequests
              rw [g.submitOne_ok q rest more hp ht]
              by_cases hrest : rest = []
              · exact .finished (by simp [hrest, hrecords, markSubmitted]) (by simpa [hrest] using hrequests) hrest
              · exact .underway (by simp [hrest, hrecords]) (by simpa using hrequests) hrest

theorem submission_iterate (h : HostAgent) (w : Word) (r : Response) (n : Nat) :
    Submission h w r (HostAgent.submitOne^[n] (h.receive w r)) := by
  induction n with
  | zero => exact submission_receive h w r
  | succ n ih =>
      rw [Function.iterate_succ_apply']
      exact ih.submitOne

/-- The host that issues a command and submits all its requests, as far as the transport lets it. -/
abbrev HostAgent.submitAll (h : HostAgent) (w : Word) (r : Response) : HostAgent :=
  HostAgent.submitOne^[r.reqs.length] (h.receive w r)

/-- A command with requests, all of them accepted, counts as submitted, and the transport goes on. -/
theorem HostAgent.submitAll_accepted {h : HostAgent} {w : Word} {r : Response}
    {more : List (Option TransportError)} (hreqs : r.reqs ≠ [])
    (ht : h.transport = List.replicate r.reqs.length none ++ more) :
    (h.submitAll w r).records = ⟨w, r.status, true⟩ :: h.records ∧ (h.submitAll w r).transport = more := by
  have hall : h.submitAll w r = (h.receive w r).afterAccepted r.reqs [] more :=
    submitOne_iterate_accepted (by simp) ht
  simp [hall, HostAgent.afterAccepted, hreqs, markSubmitted]

/-! ### The statements on submission and the session -/

/-- Settles O55: the accepted requests are submitted in order, and a failure abandons the rest. -/
theorem submissionStopsAtTheFirstFailure : Obligations.SubmissionStopsAtTheFirstFailure := by
  intro h done
  refine ⟨?_, ?_⟩
  · intro q later e more hp ht h'
    have hfailed : h' = _ := submitOne_iterate_failed hp ht
    rw [hfailed]
    exact ⟨rfl, rfl, rfl, rfl⟩
  · intro more hp ht h'
    have haccepted : h' = _ := submitOne_iterate_accepted (later := []) (by simpa using hp) ht
    rw [haccepted]
    exact ⟨rfl, rfl, rfl, rfl⟩

/-- Settles O56: a submitted REQ_CONFIGURE is a record that configures; a command whose submission will fail is
a record that succeeds at nothing; and the record that configures is one of a finished submission. -/
theorem configuredOnlyAfterEverySubmission : Obligations.ConfiguredOnlyAfterEverySubmission := by
  intro h w r more
  refine ⟨fun hopc hstatus hreqs ht => ?_, fun k e hk ht n => ?_, ?_⟩
  · obtain ⟨hrecords, _⟩ := h.submitAll_accepted (w := w) hreqs ht
    have hsucceeded := (CommandRecord.succeeded_iff ⟨w, r.status, true⟩ .reqConfigure).mpr ⟨hopc, hstatus, rfl⟩
    rw [HostAgent.session_eq_configured_iff, HostAgent.mayBeConfigured_iff, hrecords, List.any_cons, hsucceeded]
    exact .inl rfl
  · have hfail : (h.receive w r).WillFail := ⟨k, e, more, hk, ht⟩
    have hreqs : r.reqs.isEmpty = false := by
      simpa using List.ne_nil_of_length_pos (Nat.zero_lt_of_lt hk)
    have hrecords := hfail.iterate_records n
    rw [HostAgent.receive_records, hreqs] at hrecords
    have hsession := HostAgent.session_of_records_cons hrecords
      (CommandRecord.succeeded_of_not_submitted w r.status)
    exact ⟨hsession, fun hnil => hsession.trans (HostAgent.session_of_records_nil hnil)⟩
  · intro n hbefore after hafter
    have hunsubmitted (hrecords : after.records = ⟨w, r.status, false⟩ :: h.records) : False := by
      have hsession := HostAgent.session_of_records_cons hrecords
        (CommandRecord.succeeded_of_not_submitted w r.status)
      exact nomatch hafter.symm.trans (hsession.trans hbefore)
    cases submission_iterate h w r n with
    | underway hrecords _ _ => exact (hunsubmitted hrecords).elim
    | abandoned hrecords _ => exact (hunsubmitted hrecords).elim
    | finished hrecords hrequests _ =>
        obtain ⟨hstatus, hopc⟩ := HostAgent.configuring_record hrecords hbefore hafter
        exact ⟨hstatus, hrequests, hopc⟩

end Sys2Proof.Machine
end

section
/-!
# Three commands that configure a session (60_exceptions.md R248)

After three submitted commands the records are theirs. The first part says which opcodes such records succeed
at; the second settles the statement.
-/

namespace Sys2Proof.Machine

/-! ### Records of submitted commands -/

/-- Records of OK commands that were wholly submitted succeed at the opcodes of their words. -/
theorem any_succeeded_iff {records : List CommandRecord}
    (h : ∀ r ∈ records, r.status = some 0x00 ∧ r.submitted = true) (op : Opcode) :
    records.any (·.succeeded op) = true ↔ op.code ∈ records.map (·.cmd.extractLsb' 0 8) := by
  rw [List.any_eq_true, List.mem_map]
  refine exists_congr fun r => and_congr_right fun hr => ?_
  rw [r.succeeded_iff op]
  exact and_iff_left (h r hr)

/-- With such records only, the session is CONFIGURED when the words hold the opcode of REQ_CONFIGURE or all
three of the others (60_exceptions.md R248). -/
theorem session_configured_iff_of_submitted {h : HostAgent}
    (hall : ∀ r ∈ h.records, r.status = some 0x00 ∧ r.submitted = true) :
    h.session = .configured ↔ Opcode.reqConfigure.code ∈ h.records.map (·.cmd.extractLsb' 0 8) ∨
      ∀ c ∈ sessionOpcodes.map Opcode.code, c ∈ h.records.map (·.cmd.extractLsb' 0 8) := by
  simp only [h.session_eq_configured_iff, h.mayBeConfigured_iff, any_succeeded_iff hall, List.forall_mem_map]

/-- Such records of all three opcodes configure the session, whatever else the host has issued
(60_exceptions.md R248). -/
theorem session_configured_of_submitted {h : HostAgent} {records : List CommandRecord}
    (hsub : records ⊆ h.records) (hall : ∀ r ∈ records, r.status = some 0x00 ∧ r.submitted = true)
    (hopcodes : ∀ c ∈ sessionOpcodes.map Opcode.code, c ∈ records.map (·.cmd.extractLsb' 0 8)) :
    h.session = .configured := by
  rw [HostAgent.session_eq_configured_iff, HostAgent.mayBeConfigured_iff]
  refine .inr fun op hop => ?_
  have hcode := hopcodes op.code (List.mem_map_of_mem hop)
  obtain ⟨r, hr, hsucceeded⟩ := List.any_eq_true.mp ((any_succeeded_iff hall op).mpr hcode)
  exact List.any_eq_true.mpr ⟨r, hsub hr, hsucceeded⟩

theorem session_unconfigured_iff_ne (h : HostAgent) : h.session = .unconfigured ↔ h.session ≠ .configured := by
  rw [h.session_eq_unconfigured_iff, ne_eq, h.session_eq_configured_iff]

/-- While the last request of a command is not submitted, though the transport accepts it, the command leaves the
session as it was (60_exceptions.md R248). -/
theorem session_submitting {h : HostAgent} {w : Word} {r : Response} {n : Nat}
    {more : List (Option TransportError)} (hn : n < r.reqs.length)
    (ht : h.transport = List.replicate r.reqs.length none ++ more) :
    (HostAgent.submitOne^[n] (h.receive w r)).session = h.session := by
  have hlength : (r.reqs.take n).length = n := List.length_take_of_le hn.le
  have hlater : r.reqs.drop n ≠ [] := by simpa using hn
  have hreqs : r.reqs.isEmpty = false := by simpa using List.ne_nil_of_length_pos (Nat.zero_lt_of_lt hn)
  have ht : (h.receive w r).transport =
      List.replicate (r.reqs.take n).length none ++ (List.replicate (r.reqs.length - n) none ++ more) := by
    rw [hlength, ← List.append_assoc, ← List.replicate_add, Nat.add_sub_cancel' hn.le]
    exact ht
  have haccepted := submitOne_iterate_accepted (List.take_append_drop n r.reqs).symm ht
  rw [hlength] at haccepted
  refine HostAgent.session_of_records_cons ?_ (CommandRecord.succeeded_of_not_submitted w r.status)
  rw [haccepted]
  simp [HostAgent.afterAccepted, hlater, hreqs]

/-- Two of three words that hold the three opcodes, once each, do not configure a session. -/
theorem not_configuring_of_perm {a b c : BitVec 8} (h : [a, b, c].Perm (sessionOpcodes.map Opcode.code)) :
    ¬ (Opcode.reqConfigure.code ∈ [b, a] ∨ ∀ x ∈ sessionOpcodes.map Opcode.code, x ∈ [b, a]) := by
  rintro (hconfigure | hthree)
  · have hmem : Opcode.reqConfigure.code ∈ [a, b, c] := by
      obtain h | h : Opcode.reqConfigure.code = b ∨ Opcode.reqConfigure.code = a := by simpa using hconfigure
      · simp [h]
      · simp [h]
    exact absurd (h.mem_iff.mp hmem) (by decide)
  · have hnodup : [a, b, c].Nodup := h.nodup_iff.mpr (by decide)
    obtain ⟨⟨_, hac⟩, hbc⟩ : (a ≠ b ∧ a ≠ c) ∧ b ≠ c := by simpa using hnodup
    obtain hcb | hca : c = b ∨ c = a := by simpa using hthree c (h.mem_iff.mp (by simp))
    · exact hbc hcb.symm
    · exact hac hca.symm

/-! ### The statement on three commands -/

/-- Settles O57: the three words hold the three opcodes, once each; without the third command one is missing. -/
theorem threeSubmittedCommandsConfigureTheSession : Obligations.ThreeSubmittedCommandsConfigureTheSession := by
  intro h w₁ w₂ w₃ r₁ r₂ r₃ more submitAll hopcodes hok ht
  obtain ⟨⟨hst₁, hne₁⟩, ⟨hst₂, hne₂⟩, ⟨hst₃, hne₃⟩⟩ :
      (r₁.status = some 0x00 ∧ r₁.reqs ≠ []) ∧ (r₂.status = some 0x00 ∧ r₂.reqs ≠ []) ∧
        (r₃.status = some 0x00 ∧ r₃.reqs ≠ []) := by simpa using hok
  rw [List.replicate_add, List.replicate_add, List.append_assoc, List.append_assoc] at ht
  obtain ⟨hrec₁, ht₁⟩ := HostAgent.submitAll_accepted (w := w₁) hne₁ ht
  obtain ⟨hrec₂, ht₂⟩ := HostAgent.submitAll_accepted (w := w₂) hne₂ ht₁
  obtain ⟨hrec₃, _⟩ := HostAgent.submitAll_accepted (w := w₃) hne₃ ht₂
  rw [hrec₁] at hrec₂
  rw [hrec₂] at hrec₃
  refine ⟨?_, fun hnil n hn => ?_⟩
  · refine session_configured_of_submitted
      (records := [⟨w₃, r₃.status, true⟩, ⟨w₂, r₂.status, true⟩, ⟨w₁, r₁.status, true⟩]) ?_
      (by simp [hst₁, hst₂, hst₃]) fun c hc => List.mem_reverse.mpr (hopcodes.mem_iff.mpr hc)
    rw [hrec₃]
    exact List.subset_append_left _ h.records
  · rw [hnil] at hrec₂
    have htwo := session_configured_iff_of_submitted
      (h := (h.submitAll w₁ r₁).submitAll w₂ r₂) (by simp [hrec₂, hst₁, hst₂])
    rw [hrec₂] at htwo
    refine (session_submitting hn ht₂).trans ((session_unconfigured_iff_ne _).mpr fun hconf => ?_)
    exact not_configuring_of_perm hopcodes (htwo.mp hconf)

end Sys2Proof.Machine
end

section
/-!
# The block with its host (60_exceptions.md R245, R249, 42_control_requests.md R190)

The first part says everything a step of the composition can do; the second what every run keeps; the third
settles the statements on ended programs and on submissions.
-/

namespace Sys2Proof.Machine

/-! ### A step of the composition -/

/-- With a transaction presented the block answers it, and the host waits (log entry 15). -/
theorem System.step_of_presented_cons {y : System} (hp : y.block.presented ≠ []) :
    ∃ b, y.step = .next { y with block := b } := by
  obtain ⟨tx, rest, hcons⟩ := List.exists_cons_of_ne_nil hp
  obtain ⟨b, hb⟩ := step_answers y.block
  exact ⟨b, by simp [System.step, hcons, hb]⟩

/-- Everything a step can do with nothing presented: a submission, the next command with its response, or
nothing (log entry 15). -/
theorem System.step_cases {y : System} (hp : y.block.presented = []) :
    (y.host.pending ≠ [] ∧ y.step = .next { y with host := y.host.submitOne }) ∨
      (∃ tx more r, y.host.pending = [] ∧ y.host.program = tx :: more ∧
        y.step = .next { block := (y.block.present tx).answered tx [] r,
                         host := { y.host with program := more }.receive tx.cmd r }) ∨
      (y.host.pending = [] ∧ y.step = .next y) := by
  cases hpending : y.host.pending with
  | cons q rest => exact .inl ⟨List.cons_ne_nil q rest, by simp [System.step, hp, hpending]⟩
  | nil =>
      cases hfailure : y.host.failure with
      | some e => exact .inr (.inr ⟨rfl, by simp [System.step, hp, hpending, hfailure]⟩)
      | none =>
          cases hprogram : y.host.program with
          | nil => exact .inr (.inr ⟨rfl, by simp [System.step, hp, hpending, hfailure, hprogram]⟩)
          | cons tx more =>
              have hpresented : (y.block.present tx).presented = [tx] := by simp [hp]
              obtain ⟨r, _, hs⟩ := Machine.step_of_presented_cons hpresented
              exact .inr (.inl ⟨tx, more, r, rfl, rfl,
                by simp [System.step, hp, hpending, hfailure, hprogram, hs]⟩)

/-! ### What a run keeps -/

/-- The commands with a response, then the commands still to issue (60_exceptions.md R249). -/
def System.commands (y : System) : List Transaction := y.block.completed.map (·.tx) ++ y.host.program

/-- A command leaves the program only as it is answered, and every step ends with nothing presented. -/
theorem System.step_keeps_commands {y y' : System} (hp : y.block.presented = []) (h : y.step = .next y') :
    y'.block.presented = [] ∧ y'.commands = y.commands := by
  obtain ⟨_, hs⟩ | ⟨tx, more, r, _, hprogram, hs⟩ | ⟨_, hs⟩ := System.step_cases hp
  · obtain rfl := Host.Outcome.next.inj (h.symm.trans hs)
    exact ⟨hp, by simp [System.commands]⟩
  · obtain rfl := Host.Outcome.next.inj (h.symm.trans hs)
    exact ⟨rfl, by simp [System.commands, hprogram]⟩
  · obtain rfl := Host.Outcome.next.inj (h.symm.trans hs)
    exact ⟨hp, rfl⟩

/-- What every step keeps, a run keeps. -/
theorem System.run_keeps {P : System → Prop} (hstep : ∀ {y y'}, P y → y.step = .next y' → P y') {k : Nat}
    {y y' : System} (hy : P y) (h : System.run k y = .next y') : P y' := by
  induction k generalizing y with
  | zero =>
      obtain rfl := Host.Outcome.next.inj h
      exact hy
  | succ k ih =>
      rw [System.run] at h
      split at h
      · rename_i y₁ hs
        exact ih (hstep hy hs) h
      · cases h
      · cases h

/-! ### The statements on the composition -/

/-- Settles O58: a run keeps the commands, so none is left exactly when all are answered; and a program that has
ended has nothing to submit or to issue. -/
theorem endedProgramsHaveEveryResponse : Obligations.EndedProgramsHaveEveryResponse := by
  intro s program transport k y hp h
  obtain ⟨hpresented, hcommands⟩ := System.run_keeps
    (P := fun y => y.block.presented = [] ∧ y.commands = s.completed.map (·.tx) ++ program)
    (fun ⟨hp, hcommands⟩ hs => (System.step_keeps_commands hp hs).imp_right (·.trans hcommands)) ⟨hp, rfl⟩ h
  refine ⟨hcommands, ?_, fun hended => ?_⟩
  · rw [y.host.ended_iff, ← hcommands, System.commands, List.self_eq_append_right]
  · obtain ⟨hprogram, hpending⟩ := y.host.ended_iff.mp hended
    obtain ⟨hne, _⟩ | ⟨tx, more, r, _, hcons, _⟩ | ⟨_, hs⟩ := System.step_cases hpresented
    · exact absurd hpending hne
    · exact nomatch hprogram.symm.trans hcons
    · exact hs

/-- Settles O59: every step of the composition answers, and only one that submits has a request pending. -/
theorem submissionsNeverReachTheBlock : Obligations.SubmissionsNeverReachTheBlock := by
  intro y
  by_cases hp : y.block.presented = []
  · obtain ⟨_, hs⟩ | ⟨tx, more, r, hpending, _, hs⟩ | ⟨_, hs⟩ := System.step_cases hp
    · exact ⟨_, hs, fun _ _ => rfl⟩
    · exact ⟨_, hs, fun _ hne => absurd hpending hne⟩
    · exact ⟨_, hs, fun _ _ => rfl⟩
  · obtain ⟨b, hs⟩ := System.step_of_presented_cons hp
    exact ⟨_, hs, fun hnil => absurd hnil hp⟩

end Sys2Proof.Machine
end
